-- ==== Sys2Proof/Word.lean ====
section
/-! DEFINITION. The widths of the block and its one enumeration: bytes of the two streams (R8), 32-bit register words
(R7, R25) and the compression type (R2). -/

namespace Sys2Proof

/-- A byte of the IN or OUT stream, unsigned, bit 0 least significant (R8). -/
abbrev Byte := BitVec 8

/-- A 32-bit register word (R7: `REG_W = LEN_W = 32`). -/
abbrev Word := BitVec 32

/-- The compression type (R2), the meaning of `CMD.COMP` (R26). The spec calls the first value both `none` and,
in the written commands of R71, `raw`. -/
inductive CompressionType where
  /-- 0, LM's `none`: `G` frames carry 16 raw bytes. -/
  | raw
  /-- 1, `rle`: `G` frames carry a packed payload. -/
  | rle
  deriving DecidableEq, Repr

end Sys2Proof
end

