-- ==== Sys2Proof/Syntax.lean ====
section
/-! DEFINITION. The instructions of the block: one constructor for each row of spec/opcode_table.json (R84). A row is a
command word (format CMD), a transfer frame (FRAME) or a run record (RUN). Which operands a constructor carries is a
DESIGN CHOICE (log 15). -/

namespace Sys2Proof

/-- The twelve encodings of R84. -/
inductive Instr where
  /-- `CLR`, word 0x00000000 (R71, R132). -/
  | clr
  /-- `ENC_XFER raw` and `ENC_XFER rle` (R71, R136). -/
  | encXfer (comp : CompressionType)
  /-- `DEC_XFER raw` and `DEC_XFER rle` (R71, R138). -/
  | decXfer (comp : CompressionType)
  /-- `RLE_ENC` (R71, R141). -/
  | rleEnc
  /-- `RLE_DEC` (R71, R143). -/
  | rleDec
  /-- Any command word but the seven legal ones (R133). -/
  | cmdIllegal (w : Word)
  /-- A `G` frame; its two length bytes are implied by the payload's length (R75, R83). -/
  | g (payload : List Byte)
  /-- The `Z` frame (R76). -/
  | z
  /-- A first byte of a frame that is neither `G` nor `Z` (R77). -/
  | frameReservedTag (tag : Byte)
  /-- A literal run; its control byte is implied by the number of data bytes (R72, R83). -/
  | lit (data : List Byte)
  /-- A repeat run of `n` copies of `b`, written `REP(n, b)` in R83 (R73). -/
  | rep (n : Nat) (b : Byte)
  /-- The reserved control byte 0x80 (R74). -/
  | runReserved
  deriving DecidableEq, Repr

end Sys2Proof
end

