-- ==== Sys2Proof/WellFormed.lean ====
section
/-! DEFINITION. Which terms of `Instr` stand for an encoding of the spec. -/

namespace Sys2Proof

/-- The seven legal command words of R71. -/
def legalCommandWords : List Word := [0x000#32, 0x001#32, 0x101#32, 0x002#32, 0x102#32, 0x003#32, 0x004#32]

/-- Every field in the range its row of R84 admits. -/
def wellFormed : Instr → Bool
  | .clr => true
  | .encXfer _ => true
  | .decXfer _ => true
  | .rleEnc => true
  | .rleDec => true
  | .cmdIllegal w => !legalCommandWords.contains w
  | .g payload => payload.length ≤ 65535
  | .z => true
  | .frameReservedTag tag => tag != 0x47#8 && tag != 0x5A#8
  | .lit data => 1 ≤ data.length && data.length ≤ 128
  | .rep n _ => 2 ≤ n && n ≤ 128
  | .runReserved => true

end Sys2Proof
end

