-- ==== Sys2Proof/Decode.lean ====
section
/-! DEFINITION. Decoding and encoding of the three formats (30_encoding.md): the command word, the transfer frame, the run
record. Which format a decoder reads is fixed by what the block is doing (R80, R84), never by the bits: the same byte 0x47
is a frame's tag in one job and a literal's control byte in another. -/

namespace Sys2Proof

/-! ## Encoded things -/

/-- An encoded instruction, tagged with its format (R70): a register word or bytes of a stream. -/
inductive Encoding where
  | cmd (w : Word)
  | frame (bytes : List Byte)
  | run (bytes : List Byte)
  deriving DecidableEq, Repr

/-- Why bytes are not (yet) an instruction. Every one means that bytes are missing: each value of a first byte is some row
of R84, so nothing else is rejected (DEDUCED, log 16). -/
inductive DecodeReject where
  /-- No first byte. -/
  | noInput
  /-- A `G` tag without both length bytes (R113). -/
  | lengthCut
  /-- A `G` frame with fewer payload bytes than it declares (R113). -/
  | payloadCut
  /-- A run record with fewer data bytes than its control byte asks for (R91, R92). -/
  | dataCut
  deriving DecidableEq, Repr

/-! ## Fields -/

/-- `un16(lo, hi) = lo + 256*hi` (R9). -/
def un16 (lo hi : Byte) : Nat := lo.toNat + 256 * hi.toNat

/-- `le16(n)`: low byte, then high byte (R9, R54 (b)); of numbers above 65535 the low 16 bits (DESIGN CHOICE, safe, log 19). -/
def le16 (n : Nat) : List Byte := [BitVec.ofNat 8 (n % 256), BitVec.ofNat 8 (n / 256)]

/-- `CMD.OP = w[2:0]` (R26). -/
def cmdOp (w : Word) : BitVec 3 := w.extractLsb' 0 3

/-- The compression type a `COMP` bit stands for (R71: 0 = none, 1 = rle). -/
def compOfBit (b : Bool) : CompressionType := if b then .rle else .raw

/-- The `COMP` bit of a compression type (R71). -/
def compBit : CompressionType → BitVec 1
  | .raw => 0#1
  | .rle => 1#1

/-- `CMD.COMP = w[8]` (R26). -/
def cmdComp (w : Word) : CompressionType := compOfBit (w.getLsbD 8)

/-! ## Decoding -/

/-- Command words (R71): the seven legal ones, and any other is `CMD_ILLEGAL` (R133). -/
def decodeCmd (w : Word) : Instr :=
  if w = 0x00000000#32 then .clr
  else if w = 0x00000001#32 then .encXfer .raw
  else if w = 0x00000101#32 then .encXfer .rle
  else if w = 0x00000002#32 then .decXfer .raw
  else if w = 0x00000102#32 then .decXfer .rle
  else if w = 0x00000003#32 then .rleEnc
  else if w = 0x00000004#32 then .rleDec
  else .cmdIllegal w

/-- Frames, selected on byte 0 (R75, R76, R77, R79; the tag values are UNVERIFIED, log 10). Of a reserved tag only the tag
byte is read. -/
def decodeFrame : List Byte → Except DecodeReject (Instr × List Byte)
  | [] => .error .noInput
  | tag :: rest =>
    if tag = 0x5A#8 then .ok (.z, rest)
    else if tag = 0x47#8 then
      match rest with
      | lo :: hi :: body =>
        if body.length < un16 lo hi then .error .payloadCut
        else .ok (.g (body.take (un16 lo hi)), body.drop (un16 lo hi))
      | _ => .error .lengthCut
    else .ok (.frameReservedTag tag, rest)

/-- Run records, selected on the control byte (R72, R73, R74, R79); 0x80 before the repeat runs. -/
def decodeRun : List Byte → Except DecodeReject (Instr × List Byte)
  | [] => .error .noInput
  | c :: rest =>
    if c.toNat ≤ 0x7F then
      if rest.length < c.toNat + 1 then .error .dataCut
      else .ok (.lit (rest.take (c.toNat + 1)), rest.drop (c.toNat + 1))
    else if c = 0x80#8 then .ok (.runReserved, rest)
    else
      match rest with
      | b :: rest' => .ok (.rep (257 - c.toNat) b, rest')
      | [] => .error .dataCut

/-- The decoder, total on every word and every byte string; it answers the instruction and the bytes after it. -/
def decode : Encoding → Except DecodeReject (Instr × List Byte)
  | .cmd w => .ok (decodeCmd w, [])
  | .frame bytes => decodeFrame bytes
  | .run bytes => decodeRun bytes

/-! ## Encoding -/

/-- A field of a 32-bit word with its least significant bit at `lo` and zeros around it (R8). -/
def placeField {n : Nat} (v : BitVec n) (lo : Nat) : Word := v.setWidth 32 <<< lo

/-- The word of a command: `OP` at 2:0, `COMP` at bit 8, all else 0 (R71). -/
def commandWord (op : BitVec 3) (comp : CompressionType) : Word :=
  placeField op 0 ||| placeField (compBit comp) 8

/-- The encoder, written from the layouts of R71 to R77. For a term that is not well-formed its words mean nothing (DESIGN
CHOICE, safe, log 19). -/
def encode : Instr → Encoding
  | .clr => .cmd 0x00000000#32
  | .encXfer comp => .cmd (commandWord 1#3 comp)
  | .decXfer comp => .cmd (commandWord 2#3 comp)
  | .rleEnc => .cmd 0x00000003#32
  | .rleDec => .cmd 0x00000004#32
  | .cmdIllegal w => .cmd w
  | .g payload => .frame (0x47#8 :: le16 payload.length ++ payload)
  | .z => .frame [0x5A#8]
  | .frameReservedTag tag => .frame [tag]
  | .lit data => .run (BitVec.ofNat 8 (data.length - 1) :: data)
  | .rep n b => .run [BitVec.ofNat 8 (257 - n), b]
  | .runReserved => .run [0x80#8]

/-- The bytes of an encoding on a stream; a command word is on none. -/
def Encoding.streamBytes : Encoding → List Byte
  | .cmd _ => []
  | .frame bytes => bytes
  | .run bytes => bytes

/-- The bytes of a frame or run record on its stream. -/
def streamBytes (i : Instr) : List Byte := (encode i).streamBytes

/-! ## Telling lengths (R79) -/

/-- R79's table for FRAME: the length a frame's first bytes tell; nothing for a byte that begins no frame or while
the length field is cut short. -/
def frameLength : List Byte → Option Nat
  | [] => none
  | tag :: rest =>
    if tag = 0x5A#8 then some 1
    else if tag = 0x47#8 then
      match rest with
      | lo :: hi :: _ => some (3 + un16 lo hi)
      | _ => none
    else none

/-- R79's table for RUN: the length a control byte tells; nothing for 0x80. -/
def runLength : List Byte → Option Nat
  | [] => none
  | c :: _ =>
    if c.toNat ≤ 0x7F then some (c.toNat + 2)
    else if c = 0x80#8 then none
    else some 2

/-- The length in bytes that an encoding tells of itself (R70, R79). -/
def toldLength : Encoding → Option Nat
  | .cmd _ => some 4
  | .frame bytes => frameLength bytes
  | .run bytes => runLength bytes

/-! ## The opcode table's words -/

/-- The first `n` bytes of a table word, its least significant byte first. -/
def tableBytes : Nat → Nat → List Byte
  | 0, _ => []
  | n + 1, w => BitVec.ofNat 8 w :: tableBytes n (w / 256)

/-- Bytes followed by zero bytes up to the length they tell. -/
def zeroExtended (bytes : List Byte) (told : Option Nat) : List Byte :=
  bytes ++ List.replicate (told.getD 0 - bytes.length) 0#8

/-- A word of spec/opcode_table.json as the hardware meets it. 32 bits are a command word. Shorter rows are bytes of a
stream: a first byte 0x47 or 0x5A is read as a frame's tag, any other as a run record's control byte, since the table's
word does not say which format it stands in (DESIGN CHOICE, log 11). -/
def tableEncoding (nbits w : Nat) : Encoding :=
  if nbits = 32 then .cmd (BitVec.ofNat 32 w)
  else
    let bytes := tableBytes (nbits / 8) w
    match bytes with
    | tag :: _ =>
      if tag = 0x47#8 ∨ tag = 0x5A#8 then .frame (zeroExtended bytes (frameLength (bytes ++ [0#8, 0#8])))
      else .run (zeroExtended bytes (runLength bytes))
    | [] => .run []

/-- The instruction the decoder reads from a table word, all bits above the row's own zero. -/
def decodeTableWord (nbits w : Nat) : Option Instr :=
  match decode (tableEncoding nbits w) with
  | .ok (i, _) => some i
  | .error _ => none

end Sys2Proof
end

