-- ==== Sys2Proof/Machine/State.lean ====
section
/-! DEFINITION. The state of RLE-TFC as plain data (10_state.md), the reasons a step of the model stops, and the state after
reset (R39). -/

namespace Sys2Proof.Machine

/-- The engine's control state `st` (R21). -/
inductive EngineState where
  | idle
  | busy
  | done
  deriving DecidableEq, Repr

/-- The kinds of error of R150, codes 1 to 7 in order. -/
inductive ErrKind where
  | tag
  | frameTrunc
  | rawLen
  | rleTrunc
  | rleRsvd
  | lineLen
  | cmd
  deriving DecidableEq, Repr

/-- The width of a register access. Only `word` is defined (R34). -/
inductive AccessWidth where
  | byte
  | half
  | word
  deriving DecidableEq, Repr

/-- What the host can do to the block (R185). Offsets are from `BASE` (R25). -/
inductive HostAction where
  | readReg (width : AccessWidth) (off : Nat)
  | writeReg (width : AccessWidth) (off : Nat) (val : Word)
  /-- `InPush(b)` (R53). -/
  | inPush (b : Byte)
  /-- `OutPop()` (R53). -/
  | outPop
  /-- `rst` (R170). -/
  | rst
  deriving DecidableEq, Repr

/-- Whose turn it is: the two agents of R20. -/
inductive Turn where
  | engine
  | host (a : HostAction)
  deriving DecidableEq, Repr

/-- What the host is told (R185: "only through register reads and the bytes it pops"). -/
inductive Seen where
  | word (off : Nat) (v : Word)
  | byte (b : Byte)
  deriving DecidableEq, Repr

/-- All state the spec gives the block, and two fields of the model's own, `turns` and `seen` (DESIGN CHOICE, logs 1 and 2). -/
structure State where
  /-- `st` (R21); `STATUS.BUSY` and `STATUS.DONE` are views of it (R28). -/
  st : EngineState
  /-- `IN_LEN` (R27). -/
  inLen : Word
  /-- `STATUS.ERR` (R24, R28). -/
  err : Bool
  /-- `STATUS.ERR_CODE` (R28, R150). -/
  errCode : BitVec 4
  /-- `STATUS.OP` (R28). -/
  op : BitVec 3
  /-- `STATUS.COMP` (R28). -/
  comp : CompressionType
  /-- `IN_POS`, the input cursor `ipos` (R23, R29). -/
  inPos : Word
  /-- `OUT_LEN` (R30). -/
  outLen : Word
  /-- `UNIT_CNT` (R31). -/
  unitCnt : Word
  /-- `ERR_POS` (R32). -/
  errPos : Word
  /-- The IN queue, head first (R35). -/
  inq : List Byte
  /-- The OUT queue, head first (R36). -/
  outq : List Byte
  /-- The model's own: the turns still to come, first one first. When none is left the host does nothing more and every
  turn is the engine's (DESIGN CHOICE, log 1). -/
  turns : List Turn
  /-- The model's own: what the host has been told, first thing first (DESIGN CHOICE, log 2). -/
  seen : List Seen
  deriving DecidableEq, Repr

/-- Reasons for which the machine stops with a fault: there are none. Every fault of the spec is a state the block goes
on from (R11: "Nothing in the block is *undefined*"; R156), so no step raises one, and that is exact, neither safe nor
unsafe (DEDUCED, log 18). -/
inductive Fault where
  deriving DecidableEq, Repr

/-- Reasons for which a step is refused. -/
inductive Refusal where
  /-- Raised by an arm of `exec` without a meaning; no arm is. Safe. -/
  | notModelled (mnemonic : String)
  /-- Raised by a byte or halfword register access (R34: "a model refuses them"). Safe. -/
  | subWordAccess
  /-- Raised by a word access at an offset that is no multiple of 4 (R34: "a model refuses them"). Safe. -/
  | misalignedAccess
  deriving DecidableEq, Repr

/-- The machine right after reset (R39), with no turn given and nothing told. -/
def State.reset : State where
  st := .idle
  inLen := 0#32
  err := false
  errCode := 0#4
  op := 0#3
  comp := .raw
  inPos := 0#32
  outLen := 0#32
  unitCnt := 0#32
  errPos := 0#32
  inq := []
  outq := []
  turns := []
  seen := []

end Sys2Proof.Machine
end

