-- ==== Sys2Proof/Machine/Flags.lean ====
section
/-! DEFINITION. The flags and the status word (R24, R28), and the numbers of the error kinds (R150). -/

namespace Sys2Proof.Machine

/-- `code(K)` (R150). -/
def errCodeOf : ErrKind → BitVec 4
  | .tag => 1#4
  | .frameTrunc => 2#4
  | .rawLen => 3#4
  | .rleTrunc => 4#4
  | .rleRsvd => 5#4
  | .lineLen => 6#4
  | .cmd => 7#4

/-- `STATUS.BUSY` (R28): 1 while a job runs. -/
def State.busy (s : State) : Bool := s.st = .busy

/-- `STATUS.DONE` (R28): 1 when the last command has ended. -/
def State.done (s : State) : Bool := s.st = .done

/-- `STATUS` as the host reads it (R28): `BUSY` 0, `DONE` 1, `ERR` 2, `ERR_CODE` 11:8, `OP` 18:16, `COMP` 24; the reserved
bits 7:3, 15:12, 23:19 and 31:25 read 0. -/
def State.status (s : State) : Word :=
  placeField (BitVec.ofBool s.busy) 0 ||| placeField (BitVec.ofBool s.done) 1 ||| placeField (BitVec.ofBool s.err) 2 |||
    placeField s.errCode 8 ||| placeField s.op 16 ||| placeField (compBit s.comp) 24

end Sys2Proof.Machine
end

