-- ==== Sys2Proof/Machine/Codec.lean ====
section
/-! DEFINITION. The pure functions of the Run-Length Codec (40_rle_codec.md) and the Transfer Frame Codec
(41_transfer_frame.md). They are written over the rest of a sequence where the spec indexes into it: `RunLen(x, i)` is
`runLen` of `x` from offset `i` on. -/

namespace Sys2Proof.Machine

/-! ## Run-length encode -/

/-- How many of the first bytes of a sequence equal `b`, at most `cap`. -/
def matchLen (b : Byte) : Nat → List Byte → Nat
  | 0, _ => 0
  | _ + 1, [] => 0
  | cap + 1, x :: xs => if x = b then matchLen b cap xs + 1 else 0

/-- `RunLen` (R96) at the start of a sequence: the length of the run of its first byte, at most 128. Of no bytes, where the spec
has no value (R96: `0 <= i < n`), it is 0 (DESIGN CHOICE, safe, log 19). -/
def runLen : List Byte → Nat
  | [] => 0
  | b :: xs => matchLen b 127 xs + 1

/-- How many further bytes a literal run takes, at most `cap`: each as long as it starts no run of two or more (R96). -/
def litExtra : Nat → List Byte → Nat
  | 0, _ => 0
  | _ + 1, [] => 0
  | cap + 1, x :: xs => if runLen (x :: xs) = 1 then litExtra cap xs + 1 else 0

/-- `FirstRun` (R141), one turn of `RleEncode`'s loop (R96): the number of bytes consumed and the record they become. Of no
bytes, where the spec has no value (R141: `|y| >= 1`), it is 0 and a literal of no bytes (DESIGN CHOICE, safe, log 19). -/
def firstRun (y : List Byte) : Nat × Instr :=
  match y with
  | [] => (0, .lit [])
  | b :: xs =>
    if 2 ≤ runLen y then (runLen y, .rep (runLen y) b)
    else (litExtra 127 xs + 1, .lit (y.take (litExtra 127 xs + 1)))

/-- The records `RleEncode` makes of a sequence; each turn consumes a byte or more, so the length is fuel enough. -/
def rleRecordsFrom : Nat → List Byte → List Instr
  | 0, _ => []
  | _ + 1, [] => []
  | fuel + 1, b :: xs =>
    (firstRun (b :: xs)).2 :: rleRecordsFrom fuel ((b :: xs).drop (firstRun (b :: xs)).1)

/-- The records `RleEncode` makes of `x`, in order (R96). -/
def rleRecords (x : List Byte) : List Instr := rleRecordsFrom x.length x

/-- `RleEncode` (R96), the hardware's encoder. -/
def rleEncode (x : List Byte) : List Byte := (rleRecords x).flatMap streamBytes

/-! ## Run-length decode -/

/-- `RecParse` (R143), one turn of `RleDecode`'s loop: bytes consumed and bytes stood for (R91, R92), or the error
(R91, R92, R93); on no bytes, where the spec has no value, truncation (DEDUCED, log 17). -/
def recParse (y : List Byte) : Except ErrKind (Nat × List Byte) :=
  match decodeRun y with
  | .ok (.lit data, _) => .ok (data.length + 1, data)
  | .ok (.rep n b, _) => .ok (2, List.replicate n b)
  | .ok _ => .error .rleRsvd
  | .error _ => .error .rleTrunc

/-- What the loop of a decoder (R94, R121) has when it ends: the bytes put out, the units that gave them, the offset it
stands at, and the error that stopped it, if one did. -/
structure LoopEnd where
  out : List Byte
  units : Nat
  pos : Nat
  err : Option ErrKind
  deriving DecidableEq, Repr

/-- The loop of R94 and R121: parse a unit, append what it stands for, go on behind it. -/
def parseLoop (parse : List Byte → Except ErrKind (Nat × List Byte)) : Nat → List Byte → LoopEnd
  | 0, _ => ⟨[], 0, 0, none⟩
  | _ + 1, [] => ⟨[], 0, 0, none⟩
  | fuel + 1, b :: xs =>
    match parse (b :: xs) with
    | .error K => ⟨[], 0, 0, some K⟩
    | .ok (c, d) =>
      let r := parseLoop parse fuel ((b :: xs).drop c)
      ⟨d ++ r.out, r.units + 1, r.pos + c, r.err⟩

/-- The loop of `RleDecode` over a packed buffer. -/
def rleLoop (p : List Byte) : LoopEnd := parseLoop recParse p.length p

/-- `RleDecode` (R94): the bytes, or the error and the offset of the record at fault. -/
def rleDecode (p : List Byte) : Except (ErrKind × Nat) (List Byte) :=
  match (rleLoop p).err with
  | none => .ok (rleLoop p).out
  | some K => .error (K, (rleLoop p).pos)

/-! ## Lines and frames -/

/-- Sixteen zero bytes (R114). -/
def zeroLine : List Byte := List.replicate 16 0#8

/-- `IsZero` (R112). -/
def isZeroLine (line : List Byte) : Bool := line.all (· = 0#8)

/-- A line made of at most 16 bytes and the zero bytes that fill it up (R111, R136); more bytes stay as they are (DESIGN CHOICE,
safe, log 19). -/
def padLine (d : List Byte) : List Byte := d ++ List.replicate (16 - d.length) 0#8

/-- The lines of a sequence; each takes a byte or more, so the length is fuel enough. -/
def lineSplitFrom : Nat → List Byte → List (List Byte)
  | 0, _ => []
  | _ + 1, [] => []
  | fuel + 1, b :: xs => padLine ((b :: xs).take 16) :: lineSplitFrom fuel ((b :: xs).drop 16)

/-- `LineSplit` (R111). -/
def lineSplit (bitmap : List Byte) : List (List Byte) := lineSplitFrom bitmap.length bitmap

/-- The frame `FrameEncode` makes of a line with an encoder `E` (R116); the zero test comes first (R112). A line of other than 16
bytes, for which the spec has no frame, is treated alike (DESIGN CHOICE, safe, log 19). -/
def lineFrame (E : List Byte → List Byte) (line : List Byte) (comp : CompressionType) : Instr :=
  if isZeroLine line then .z
  else
    match comp with
    | .rle => .g (E line)
    | .raw => .g line

/-- `FrameEncode` (R116) with the hardware's encoder. -/
def frameEncode (line : List Byte) (comp : CompressionType) : List Byte :=
  streamBytes (lineFrame rleEncode line comp)

/-- `EncodeTransfer` (R118) with an encoder `E` (R7: the parameter `ENCODER`). -/
def encodeTransferWith (E : List Byte → List Byte) (bitmap : List Byte) (comp : CompressionType) : List Byte :=
  (lineSplit bitmap).flatMap fun line => streamBytes (lineFrame E line comp)

/-- `EncodeTransfer` (R118). -/
def encodeTransfer (bitmap : List Byte) (comp : CompressionType) : List Byte :=
  encodeTransferWith rleEncode bitmap comp

/-- The line a complete `G` frame's payload stands for, or the error (R113): the length test under `raw`; under `rle` the
records left to right and last the test for 16 bytes. -/
def payloadLine (comp : CompressionType) (p : List Byte) : Except ErrKind (List Byte) :=
  match comp with
  | .raw => if p.length = 16 then .ok p else .error .rawLen
  | .rle =>
    match rleDecode p with
    | .error (K, _) => .error K
    | .ok d => if d.length = 16 then .ok d else .error .lineLen

/-- `FrameParse` (R120): bytes consumed and the line, or the error; on no bytes, where the spec has no value, truncation
(DEDUCED, log 17). -/
def frameParse (comp : CompressionType) (b : List Byte) : Except ErrKind (Nat × List Byte) :=
  match decodeFrame b with
  | .ok (.g p, _) => (payloadLine comp p).map fun line => (3 + p.length, line)
  | .ok (.z, _) => .ok (1, zeroLine)
  | .ok _ => .error .tag
  | .error _ => .error .frameTrunc

/-- The loop of `DecodeTransfer` over a frame stream. -/
def transferLoop (comp : CompressionType) (x : List Byte) : LoopEnd := parseLoop (frameParse comp) x.length x

/-- `DecodeTransfer` (R121): the bitmap, or the error, the offset of the frame at fault and the lines before it. -/
def decodeTransfer (x : List Byte) (comp : CompressionType) : Except (ErrKind × Nat × List Byte) (List Byte) :=
  match (transferLoop comp x).err with
  | none => .ok (transferLoop comp x).out
  | some K => .error (K, (transferLoop comp x).pos, (transferLoop comp x).out)

end Sys2Proof.Machine
end

