-- ==== Sys2Proof/Config.lean ====
section
/-! DEFINITION. What an implementation of the block fixes (R7). `BASE` is the one parameter left open that an address
depends on. The constants of R6 (16, 128, 65535) are literals of the model, as R6 asks. The queue depths are absent: the
model's queues are unbounded (R7, DESIGN CHOICE, log 3). The encoder is the reference function (R7, DESIGN CHOICE, log 4). -/

namespace Sys2Proof

/-- `BASE`, the platform's address of the register space (R25, R58). Nothing is known of its value. -/
opaque Config.base : Nat

/-- The platform address of the register at a byte offset (R25: offsets are "from the block's base address").
Host actions of the model carry the offset, so no step depends on `BASE` (DESIGN CHOICE, log 5). -/
def Config.regAddress (off : Nat) : Nat := Config.base + off

end Sys2Proof
end

