-- ==== Sys2Proof/Machine/Operands.lean ====
section
/-! DEFINITION. What a step reads: the part of the job's input that is queued (head of 42_job_control.md) and the register
space (R25 to R34). -/

namespace Sys2Proof.Machine

/-- `InAvail()` (R51). -/
def State.inAvail (s : State) : Nat := s.inq.length

/-- `rem = IN_LEN - ipos`; 0 in a state, which no run reaches while a job runs, with the cursor beyond (DEDUCED, log 9). -/
def State.rem (s : State) : Nat := s.inLen.toNat - s.inPos.toNat

/-- `a = min(InAvail(), rem)`. -/
def State.ready (s : State) : Nat := min s.inAvail s.rem

/-- `InPeek(k)` (R51); with fewer than `k` bytes queued, where the spec has no value, all of them (DESIGN CHOICE, safe, log 19). -/
def State.inPeek (s : State) (k : Nat) : List Byte := s.inq.take k

/-- `q = InPeek(a)`: the part of the job's remaining input already queued. -/
def State.window (s : State) : List Byte := s.inPeek s.ready

/-- What a read of the aligned word at a byte offset returns (R25 to R33): `CMD` and reserved offsets read 0. -/
def State.readWord (s : State) (off : Nat) : Word :=
  if off = 0x04 then s.inLen
  else if off = 0x08 then s.status
  else if off = 0x0C then s.inPos
  else if off = 0x10 then s.outLen
  else if off = 0x14 then s.unitCnt
  else if off = 0x18 then s.errPos
  else 0#32

/-- Which register accesses the spec does not define (R34), refused by name (safe, log 6). -/
def accessRefusal (width : AccessWidth) (off : Nat) : Option Refusal :=
  match width with
  | .byte => some .subWordAccess
  | .half => some .subWordAccess
  | .word => if off % 4 = 0 then none else some .misalignedAccess

end Sys2Proof.Machine
end

