-- ==== Sys2Proof/Machine/Ops.lean ====
section
/-! DEFINITION. The named operations on the state that meanings and engine steps are made of: the stream primitives (R51,
R53), the unit step and the fault step (R134), FAULT ENTRY (R156), which is this block's taking of an exception, the two ways
out of the fault state (R158), and the acceptance of a `CMD` write (R130). -/

namespace Sys2Proof.Machine

/-- What a step of the model answers. -/
abbrev StepOutcome := Host.Outcome State Fault Refusal

/-- `InPop(k)` on the state (R51): the head of IN goes, the cursor moves. With fewer than `k` bytes queued, where the spec has no
value, all of them go (DESIGN CHOICE, safe, log 19). -/
def State.inPop (s : State) (k : Nat) : State :=
  { s with inq := s.inq.drop k, inPos := s.inPos + BitVec.ofNat 32 k }

/-- `OutPush(bs)` (R53): appended to OUT, counted mod 2^32. -/
def State.outPush (s : State) (bs : List Byte) : State :=
  { s with outq := s.outq ++ bs, outLen := s.outLen + BitVec.ofNat 32 bs.length }

/-- One more unit completed (R31). -/
def State.countUnit (s : State) : State := { s with unitCnt := s.unitCnt + 1#32 }

/-- A unit step's effect (R56): `k` bytes in, `out` out, one unit counted, all at once. -/
def State.unitStep (s : State) (k : Nat) (out : List Byte) : State :=
  ((s.inPop k).outPush out).countUnit

/-- `FaultEntry(K, ipos)` (R156): the drain, what is recorded, the end of the job. -/
def State.faultEntry (s : State) (K : ErrKind) : State :=
  { s.inPop s.rem with
    errPos := s.inPos
    errCode := errCodeOf K
    err := true
    st := .done }

/-- The completion step's effect (R135). -/
def State.complete (s : State) : State := { s with st := .done }

/-- Cursor and counters as `CLR`, a job's start and an illegal word leave them (R131, R132, R133). -/
def State.clearCounters (s : State) : State :=
  { s with inPos := 0#32, outLen := 0#32, unitCnt := 0#32, errPos := 0#32 }

/-- Job start (R131): one way out of the fault state (R158). -/
def State.startJob (s : State) (op : BitVec 3) (comp : CompressionType) : State :=
  { s.clearCounters with op := op, comp := comp, err := false, errCode := 0#4, st := .busy }

/-- `CLR`'s effect (R132): the other way out of the fault state (R158). -/
def State.clearStatus (s : State) : State :=
  { s.clearCounters with op := 0#3, comp := .raw, err := false, errCode := 0#4, st := .idle }

/-- An illegal command word's effect (R133). -/
def State.illegalCommand (s : State) (w : Word) : State :=
  { s.clearCounters with
    op := cmdOp w
    comp := cmdComp w
    err := true
    errCode := errCodeOf .cmd
    st := .done }

/-- `rst` (R170, R39): the whole block; the environment's turns and what the host was told are not the block's. -/
def State.resetBlock (s : State) : State := { State.reset with turns := s.turns, seen := s.seen }

/-- A `CMD` write (R130): ignored while a job runs, else accepted. -/
def acceptCommand (s : State) (accepted : State) : StepOutcome :=
  if s.st = .busy then .next s else .next accepted

/-- A fault step (R139, R144): taken only when all the rest of the job's input is queued, else the engine holds (R52). -/
def faultStep (s : State) (K : ErrKind) : StepOutcome :=
  if s.ready = s.rem then .next (s.faultEntry K) else .next s

/-- The engine's step on a unit of `k` bytes at the head of the input of a running job of operation `op`, which stands for
`r`: a unit step (R138, R143), a fault step (R139, R144) or a hold (R52). Where no such job runs, or the unit is not whole in
the job's queued input, the engine has no such step and nothing happens (R134, DEDUCED, log 8). A term of `Instr` that is not
well-formed is treated by the same rule (DESIGN CHOICE, safe, log 19). -/
def decodeUnit (s : State) (op : BitVec 3) (k : Nat) (r : Except ErrKind (List Byte)) : StepOutcome :=
  if s.st = .busy ∧ s.op = op ∧ k ≤ s.ready then
    match r with
    | .ok out => .next (s.unitStep k out)
    | .error K => faultStep s K
  else .next s

end Sys2Proof.Machine
end

