-- ==== Sys2Proof/Machine/Command.lean ====
section
/-! DEFINITION. The meanings of the six CMD rows: what the write of a command word to `CMD` does (R130 to R133). The steps a
started job then takes are in Engine.lean. -/

namespace Sys2Proof.Machine

/-- `CLR` (R132). -/
def execClr (s : State) : StepOutcome := acceptCommand s s.clearStatus

/-- `ENC_XFER` (R131): starts the job whose unit step is `encXferUnit` (R136). -/
def execEncXfer (comp : CompressionType) (s : State) : StepOutcome := acceptCommand s (s.startJob 1#3 comp)

/-- `DEC_XFER` (R131): starts the job whose steps are `decXferStep` (R138, R139). -/
def execDecXfer (comp : CompressionType) (s : State) : StepOutcome := acceptCommand s (s.startJob 2#3 comp)

/-- `RLE_ENC` (R131): starts the job whose unit step is `rleEncUnit` (R141). -/
def execRleEnc (s : State) : StepOutcome := acceptCommand s (s.startJob 3#3 .raw)

/-- `RLE_DEC` (R131): starts the job whose steps are `rleDecStep` (R143, R144). -/
def execRleDec (s : State) : StepOutcome := acceptCommand s (s.startJob 4#3 .raw)

/-- An illegal command word (R133); for a legal word, which is no well-formed operand, the same (DESIGN CHOICE, safe, log 19). -/
def execCmdIllegal (w : Word) (s : State) : StepOutcome := acceptCommand s (s.illegalCommand w)

end Sys2Proof.Machine
end

