-- ==== Sys2Proof/Machine/Frame.lean ====
section
/-! DEFINITION. The meanings of the three FRAME rows: what the engine does with the frame at the head of a `DEC_XFER` job's
input (R113 to R115, R138, R139). -/

namespace Sys2Proof.Machine

/-- `G` frame (R113, R138, R139). -/
def execG (payload : List Byte) (s : State) : StepOutcome :=
  decodeUnit s 2#3 (3 + payload.length) (payloadLine s.comp payload)

/-- `Z` frame (R114, R138). -/
def execZ (s : State) : StepOutcome := decodeUnit s 2#3 1 (.ok zeroLine)

/-- Reserved tag (R115, R139); the tag's value does not matter further. -/
def execFrameReservedTag (_tag : Byte) (s : State) : StepOutcome := decodeUnit s 2#3 1 (.error .tag)

end Sys2Proof.Machine
end

