-- ==== Sys2Proof/Machine/Run.lean ====
section
/-! DEFINITION. The meanings of the three RUN rows: what the engine does with the run record at the head of an `RLE_DEC` job's
input (R91 to R93, R143, R144). A record inside a `G` frame's payload is `recParse`'s (Codec.lean), with the same outputs. -/

namespace Sys2Proof.Machine

/-- `LIT` (R91, R143). -/
def execLit (data : List Byte) (s : State) : StepOutcome := decodeUnit s 4#3 (data.length + 1) (.ok data)

/-- `REP` (R92, R143). -/
def execRep (n : Nat) (b : Byte) (s : State) : StepOutcome := decodeUnit s 4#3 2 (.ok (List.replicate n b))

/-- The reserved control byte (R93, R144). -/
def execRunReserved (s : State) : StepOutcome := decodeUnit s 4#3 1 (.error .rleRsvd)

end Sys2Proof.Machine
end

