-- ==== Sys2Proof/Machine/Dispatch.lean ====
section
/-! DEFINITION. One arm per row of spec/opcode_table.json. -/

namespace Sys2Proof.Machine

def exec (i : Instr) (s : State) : Host.Outcome State Fault Refusal :=
  match i with
  | .clr => Sys2Proof.Machine.execClr s
  | .encXfer comp => Sys2Proof.Machine.execEncXfer comp s
  | .decXfer comp => Sys2Proof.Machine.execDecXfer comp s
  | .rleEnc => Sys2Proof.Machine.execRleEnc s
  | .rleDec => Sys2Proof.Machine.execRleDec s
  | .cmdIllegal w => Sys2Proof.Machine.execCmdIllegal w s
  | .g payload => Sys2Proof.Machine.execG payload s
  | .z => Sys2Proof.Machine.execZ s
  | .frameReservedTag tag => Sys2Proof.Machine.execFrameReservedTag tag s
  | .lit data => Sys2Proof.Machine.execLit data s
  | .rep n b => Sys2Proof.Machine.execRep n b s
  | .runReserved => Sys2Proof.Machine.execRunReserved s

end Sys2Proof.Machine
end

