-- ==== Sys2Proof/Machine/Engine.lean ====
section
/-! DEFINITION. The engine's steps (42_job_control.md part 2) and the host's actions (R185). -/

namespace Sys2Proof.Machine

/-! ## The engine -/

/-- `ENC_XFER` unit step (R136): one line in, one frame out; holds until its `min(16, rem)` bytes are queued. -/
def encXferUnit (s : State) : StepOutcome :=
  let m := min 16 s.rem
  if m ≤ s.inAvail then .next (s.unitStep m (frameEncode (padLine (s.inPeek m)) s.comp))
  else .next s

/-- `DEC_XFER` step (R138, R139): the frame at the head of the queued input is decoded and executed; one that is cut short
holds, or faults when no more input is to come. -/
def decXferStep (s : State) : StepOutcome :=
  match decodeFrame s.window with
  | .ok (i, _) => exec i s
  | .error _ => faultStep s .frameTrunc

/-- `RLE_ENC` unit step (R141): one record out; holds until its look-ahead of `min(rem, 129)` bytes is queued. -/
def rleEncUnit (s : State) : StepOutcome :=
  let w := min s.rem 129
  if w ≤ s.inAvail then
    let run := firstRun (s.inPeek w)
    .next (s.unitStep run.1 (streamBytes run.2))
  else .next s

/-- `RLE_DEC` step (R143, R144): the record at the head of the queued input is decoded and executed; one that is cut short
holds, or faults when no more input is to come. -/
def rleDecStep (s : State) : StepOutcome :=
  match decodeRun s.window with
  | .ok (i, _) => exec i s
  | .error _ => faultStep s .rleTrunc

/-- The engine's turn (R134): the completion step, a step of the job's operation, or none, in which case the state stays
(DEDUCED, log 7). A job with `rem = 0` that is not
complete, or whose `STATUS.OP` names no job, is in a state no run reaches; no step is enabled there (R40, DEDUCED, log 9). -/
def engineStep (s : State) : StepOutcome :=
  if s.st = .busy then
    if s.inPos = s.inLen then .next s.complete
    else if s.rem = 0 then .next s
    else if s.op = 1#3 then encXferUnit s
    else if s.op = 2#3 then decXferStep s
    else if s.op = 3#3 then rleEncUnit s
    else if s.op = 4#3 then rleDecStep s
    else .next s
  else .next s

/-! ## The host -/

/-- A register read (R34): the word is told to the host and nothing else changes. -/
def hostRead (width : AccessWidth) (off : Nat) (s : State) : StepOutcome :=
  match accessRefusal width off with
  | some r => .refused r
  | none => .next { s with seen := s.seen ++ [.word off (s.readWord off)] }

/-- A write of an aligned word: `CMD` decodes and executes the word (R130), `IN_LEN` is stored unless a job runs (R27), every
other offset ignores it (R28, R33). -/
def writeWord (off : Nat) (val : Word) (s : State) : StepOutcome :=
  if off = 0x00 then exec (decodeCmd val) s
  else if off = 0x04 then
    if s.st = .busy then .next s else .next { s with inLen := val }
  else .next s

/-- A register write (R34). -/
def hostWrite (width : AccessWidth) (off : Nat) (val : Word) (s : State) : StepOutcome :=
  match accessRefusal width off with
  | some r => .refused r
  | none => writeWord off val s

/-- `InPush(b)` (R53). -/
def hostPush (b : Byte) (s : State) : StepOutcome := .next { s with inq := s.inq ++ [b] }

/-- `OutPop()` (R53): the head of OUT is told to the host; an empty queue returns nothing and changes nothing (R36). -/
def hostPop (s : State) : StepOutcome :=
  match s.outq with
  | [] => .next s
  | b :: rest => .next { s with outq := rest, seen := s.seen ++ [.byte b] }

/-- A host action (R185). -/
def hostStep (a : HostAction) (s : State) : StepOutcome :=
  match a with
  | .readReg width off => hostRead width off s
  | .writeReg width off val => hostWrite width off val s
  | .inPush b => hostPush b s
  | .outPop => hostPop s
  | .rst => .next s.resetBlock

/-! ## Turns -/

/-- Whose turn is next (R20); with no turn given the host does nothing more and the engine moves (DESIGN CHOICE, log 1). -/
def State.nextTurn (s : State) : Turn := s.turns.headD .engine

/-- The state once the next turn has been taken off. -/
def State.takeTurn (s : State) : State := { s with turns := s.turns.tail }

/-- One agent's move, atomic (R56). -/
def runTurn (t : Turn) (s : State) : StepOutcome :=
  match t with
  | .engine => engineStep s
  | .host a => hostStep a s

/-! ## Placing one instruction -/

/-- A job of operation `op` whose whole input is `bytes`, queued first, the engine to move next. -/
def State.withUnit (s : State) (op : BitVec 3) (bytes : List Byte) : State :=
  { s with
    st := .busy
    op := op
    inPos := 0#32
    inLen := BitVec.ofNat 32 bytes.length
    inq := bytes ++ s.inq
    turns := .engine :: s.turns }

/-- The state with an encoded instruction placed where the next step runs it (DESIGN CHOICE, log 11): a command word as the
host's next write to `CMD`; a frame as the input of a running `DEC_XFER`; a record as the input of a running `RLE_DEC`. -/
def State.withEncoding (s : State) (e : Encoding) : State :=
  match e with
  | .cmd word => { s with turns := .host (.writeReg .word 0x00 word) :: s.turns }
  | .frame bytes => s.withUnit 2#3 bytes
  | .run bytes => s.withUnit 4#3 bytes

end Sys2Proof.Machine
end

