-- ==== Sys2Proof/Machine/Step.lean ====
section
/-! DEFINITION. One step of the whole machine: the next turn is taken off `turns` and that agent moves (R20). -/

namespace Sys2Proof.Machine

/-- One step: an action of the host or a turn of the engine. -/
def step (s : State) : Host.Outcome State Fault Refusal := runTurn s.nextTurn s.takeTurn

/-- The state with a word of spec/opcode_table.json placed where the next step runs it (DESIGN CHOICE, log 11). -/
def State.withFetchWord (s : State) (nbits w : Nat) : State := s.withEncoding (tableEncoding nbits w)

end Sys2Proof.Machine
end

