-- ==== Sys2Proof/Safety.lean ====
section
/-! DEFINITION. The terms claims are stated in: the invariants of R40, the packed buffers of R90, the
encoder contract of R95, what a job is given and how it ends (R146, R148), and the part of a host's turns that cannot
disturb a running job (R62). -/

namespace Sys2Proof.Machine

/-- The invariants of R40 that speak of the present state, and R31's bound on the unit count. R40 (d) speaks of the `IN_LEN`
an ended job ran with; it is in `State.jobEnded`. -/
structure StateInv (s : State) : Prop where
  /-- R40 (a). -/
  cursor : s.st = .busy → s.inPos.toNat ≤ s.inLen.toNat
  /-- R40 (b): the four counters read 0 and `STATUS[11:0] = 0`. -/
  idle : s.st = .idle → s.inPos = 0#32 ∧ s.outLen = 0#32 ∧ s.unitCnt = 0#32 ∧ s.errPos = 0#32 ∧ s.err = false ∧ s.errCode = 0#4
  /-- R39, R132: `IDLE` is entered by reset and `CLR` only, which clear `OP` and `COMP`. -/
  idleCommand : s.st = .idle → s.op = 0#3 ∧ s.comp = .raw
  /-- R40 (c), first half. -/
  faulted : s.err = true → s.st = .done ∧ 1 ≤ s.errCode.toNat ∧ s.errCode.toNat ≤ 7
  /-- R40 (c), second half. -/
  clean : s.err = false → s.errCode = 0#4 ∧ s.errPos = 0#32
  /-- R40 (e). -/
  operation : s.st = .busy → 1 ≤ s.op.toNat ∧ s.op.toNat ≤ 4
  /-- R31: "every unit consumes at least one input byte". -/
  units : s.unitCnt.toNat ≤ s.inPos.toNat

/-- The literal and repeat runs: what a packed buffer is made of (R90). -/
def isRecord : Instr → Bool
  | .lit _ => true
  | .rep _ _ => true
  | .clr => false
  | .encXfer _ => false
  | .decXfer _ => false
  | .rleEnc => false
  | .rleDec => false
  | .cmdIllegal _ => false
  | .g _ => false
  | .z => false
  | .frameReservedTag _ => false
  | .runReserved => false

/-- The FRAME rows of R84. -/
def isFrame : Instr → Bool
  | .g _ => true
  | .z => true
  | .frameReservedTag _ => true
  | .lit _ => false
  | .rep _ _ => false
  | .runReserved => false
  | .clr => false
  | .encXfer _ => false
  | .decXfer _ => false
  | .rleEnc => false
  | .rleDec => false
  | .cmdIllegal _ => false

/-- The RUN rows of R84. -/
def isRun : Instr → Bool
  | .lit _ => true
  | .rep _ _ => true
  | .runReserved => true
  | .g _ => false
  | .z => false
  | .frameReservedTag _ => false
  | .clr => false
  | .encXfer _ => false
  | .decXfer _ => false
  | .rleEnc => false
  | .rleDec => false
  | .cmdIllegal _ => false

/-- The bytes a run record stands for (R72, R73); none for anything else. -/
def recordData : Instr → List Byte
  | .lit data => data
  | .rep n b => List.replicate n b
  | .clr => []
  | .encXfer _ => []
  | .decXfer _ => []
  | .rleEnc => []
  | .rleDec => []
  | .cmdIllegal _ => []
  | .g _ => []
  | .z => []
  | .frameReservedTag _ => []
  | .runReserved => []

/-- `p` is the packed buffer (R90) of the records `rs`. -/
def PackedAs (p : List Byte) (rs : List Instr) : Prop :=
  (∀ i ∈ rs, isRecord i = true ∧ wellFormed i = true) ∧ p = rs.flatMap streamBytes

/-- A conforming encoder (R95 (a) and (b), "what a claim may rest on"). -/
def ConformingEncoder (E : List Byte → List Byte) : Prop :=
  ∀ x, (∃ rs, PackedAs (E x) rs) ∧ rleDecode (E x) = .ok x

/-- The zero bytes that fill a bitmap up to whole lines (R122). -/
def padding (n : Nat) : List Byte := List.replicate ((16 - n % 16) % 16) 0#8

/-- A job of operation `op` just started (R131). -/
structure FreshJob (s : State) (op : BitVec 3) : Prop where
  running : s.st = .busy
  operation : s.op = op
  cursor : s.inPos = 0#32
  noOutput : s.outLen = 0#32
  noUnits : s.unitCnt = 0#32
  noErrPos : s.errPos = 0#32
  noErr : s.err = false
  noErrCode : s.errCode = 0#4

/-- The premises R186 names for a job run to its end with no further action of the host: just started, and its whole input
queued. -/
structure ReadyJob (s : State) (op : BitVec 3) : Prop where
  fresh : FreshJob s op
  input : s.inLen.toNat ≤ s.inq.length
  hostIdle : s.turns = []

/-- The input of a job whose whole input is queued. -/
def State.jobInput (s : State) : List Byte := s.inq.take s.inLen.toNat

/-- How a job started in `s` has ended (R146, R148): `out` pushed in `units` units, the error and its position if there was
one, `IN_POS = IN_LEN`, exactly `IN_LEN` bytes gone from IN. -/
def State.jobEnded (s : State) (out : List Byte) (units : Nat) (err : Option (ErrKind × Nat)) : State :=
  { s with
    st := .done
    inPos := s.inLen
    inq := s.inq.drop s.inLen.toNat
    outq := s.outq ++ out
    outLen := BitVec.ofNat 32 out.length
    unitCnt := BitVec.ofNat 32 units
    err := err.isSome
    errCode := (err.map fun e => errCodeOf e.1).getD 0#4
    errPos := BitVec.ofNat 32 ((err.map fun e => e.2).getD 0) }

/-- The pushed bytes, unit count and error of a job in closed form (R146); for an operation outside 1 to 4, which no job has, as
for 4 (DESIGN CHOICE, safe, log 19). -/
def jobResult (op : BitVec 3) (comp : CompressionType) (x : List Byte) : LoopEnd :=
  if op = 1#3 then ⟨encodeTransfer x comp, (x.length + 15) / 16, x.length, none⟩
  else if op = 2#3 then transferLoop comp x
  else if op = 3#3 then ⟨rleEncode x, (rleRecords x).length, x.length, none⟩
  else rleLoop x

/-- A turn that leaves registers alone: the engine's, a push, a pop, a read of a whole aligned word. -/
def quietTurn : Turn → Bool
  | .engine => true
  | .host (.inPush _) => true
  | .host .outPop => true
  | .host (.readReg .word off) => off % 4 = 0
  | .host (.readReg .byte _) => false
  | .host (.readReg .half _) => false
  | .host (.writeReg _ _ _) => false
  | .host .rst => false

/-- The bytes the host will push in a list of turns. -/
def pushedBytes : List Turn → List Byte
  | [] => []
  | .host (.inPush b) :: ts => b :: pushedBytes ts
  | _ :: ts => pushedBytes ts

/-- The bytes the host has popped, among what it was told. -/
def poppedBytes : List Seen → List Byte
  | [] => []
  | .byte b :: xs => b :: poppedBytes xs
  | .word _ _ :: xs => poppedBytes xs

/-- One move after another. -/
def andThen (o : StepOutcome) (f : State → StepOutcome) : StepOutcome :=
  match o with
  | .next s => f s
  | .fault r => .fault r
  | .refused r => .refused r

end Sys2Proof.Machine
end

