-- ==== Sys2Proof/Certificates/Slice0/Obligations.lean ====
section
/-! DEFINITION. The statements about RLE-TFC, from the numbered rules of spec/. OBLIGATIONS.json says which rules each one
formalises. -/

open Sys2Proof Sys2Proof.Machine

/-! ## Encodings (30_encoding.md) -/

/-- Every operand of every row survives encoding and decoding (layouts of R71, R72, R73, R75, R76). -/
def Obligations.DecodeEncodeEveryInstr : Prop :=
  ∀ i : Instr, wellFormed i = true → decode (encode i) = .ok (i, [])

/-- R79: a frame or record is told from the bytes after it. -/
def Obligations.StreamDecodeSelfDelimiting : Prop :=
  ∀ (i : Instr) (rest : List Byte), wellFormed i = true →
    (isFrame i = true → decodeFrame (streamBytes i ++ rest) = .ok (i, rest)) ∧
    (isRun i = true → decodeRun (streamBytes i ++ rest) = .ok (i, rest))

/-- What is decoded is well-formed, of its format, and encodes to exactly the bits read. -/
def Obligations.DecodeLosesNoBit : Prop :=
  (∀ w : Word, wellFormed (decodeCmd w) = true ∧ encode (decodeCmd w) = .cmd w) ∧
  (∀ (b : List Byte) (i : Instr) (rest : List Byte), decodeFrame b = .ok (i, rest) →
    wellFormed i = true ∧ isFrame i = true ∧ streamBytes i ++ rest = b) ∧
  (∀ (b : List Byte) (i : Instr) (rest : List Byte), decodeRun b = .ok (i, rest) →
    wellFormed i = true ∧ isRun i = true ∧ streamBytes i ++ rest = b)

/-- R71: the table of fields and the seven words say the same, and every other word is illegal. -/
def Obligations.ExactlySevenLegalCommandWords : Prop :=
  (decodeCmd 0x00000000#32 = .clr ∧ decodeCmd 0x00000001#32 = .encXfer .raw ∧ decodeCmd 0x00000101#32 = .encXfer .rle ∧
    decodeCmd 0x00000002#32 = .decXfer .raw ∧ decodeCmd 0x00000102#32 = .decXfer .rle ∧
    decodeCmd 0x00000003#32 = .rleEnc ∧ decodeCmd 0x00000004#32 = .rleDec) ∧
  ∀ w : Word,
    (w ∈ [0x000#32, 0x001#32, 0x101#32, 0x002#32, 0x102#32, 0x003#32, 0x004#32] ↔
      (w.extractLsb' 0 3).toNat ≤ 4 ∧ w.extractLsb' 3 5 = 0#5 ∧ w.extractLsb' 9 23 = 0#23 ∧
        (w.getLsbD 8 = true → w.extractLsb' 0 3 = 1#3 ∨ w.extractLsb' 0 3 = 2#3)) ∧
    (w ∉ [0x000#32, 0x001#32, 0x101#32, 0x002#32, 0x102#32, 0x003#32, 0x004#32] → decodeCmd w = .cmdIllegal w)

/-- R72, R73, R74: the record a control byte begins. That the decoder rejects a record whose bytes are missing, by the name
`dataCut`, is the model's (DEDUCED, log 16): no sentence of these rules speaks of missing bytes. -/
def Obligations.RunRecordDecoding : Prop :=
  ∀ (c : Byte) (rest : List Byte),
    (c.toNat ≤ 127 → c.toNat + 1 ≤ rest.length →
      decodeRun (c :: rest) = .ok (.lit (rest.take (c.toNat + 1)), rest.drop (c.toNat + 1))) ∧
    (c.toNat ≤ 127 → rest.length < c.toNat + 1 → decodeRun (c :: rest) = .error .dataCut) ∧
    (c = 0x80#8 → decodeRun (c :: rest) = .ok (.runReserved, rest)) ∧
    (129 ≤ c.toNat → rest = [] → decodeRun (c :: rest) = .error .dataCut) ∧
    (129 ≤ c.toNat → ∀ (b : Byte) (r : List Byte), rest = b :: r →
      decodeRun (c :: rest) = .ok (.rep (257 - c.toNat) b, r))

/-- R75, R76, R77: the frame a first byte begins. The tag values are the ones the spec marks as general knowledge (log 10).
That the decoder rejects a frame cut short, by the names `lengthCut` and `payloadCut`, is the model's (DEDUCED, log 16); where
the bytes run out is R113's. -/
def Obligations.FrameDecoding : Prop :=
  (∀ rest : List Byte, decodeFrame (0x5A#8 :: rest) = .ok (.z, rest)) ∧
  (∀ (lo hi : Byte) (body : List Byte), lo.toNat + 256 * hi.toNat ≤ body.length →
    decodeFrame (0x47#8 :: lo :: hi :: body) =
      .ok (.g (body.take (lo.toNat + 256 * hi.toNat)), body.drop (lo.toNat + 256 * hi.toNat))) ∧
  (∀ (lo hi : Byte) (body : List Byte), body.length < lo.toNat + 256 * hi.toNat →
    decodeFrame (0x47#8 :: lo :: hi :: body) = .error .payloadCut) ∧
  (∀ rest : List Byte, rest.length < 2 → decodeFrame (0x47#8 :: rest) = .error .lengthCut) ∧
  (∀ (tag : Byte) (rest : List Byte), tag ≠ 0x47#8 → tag ≠ 0x5A#8 →
    decodeFrame (tag :: rest) = .ok (.frameReservedTag tag, rest))

/-- Words written out from the spec's encodings: K3 and K13 of 95_test_vectors.md, and the examples of R91, R92, R93,
R113, R114, R115. -/
def Obligations.SampleWordsDecode : Prop :=
  decodeCmd 0x00000101#32 = .encXfer .rle ∧
  decodeCmd 0x00000009#32 = .cmdIllegal 0x00000009#32 ∧
  decodeFrame [0x47#8, 0x02#8, 0x00#8, 0xF1#8, 0xFF#8] = .ok (.g [0xF1#8, 0xFF#8], []) ∧
  decodeFrame [0x5A#8] = .ok (.z, []) ∧
  decodeFrame [0x00#8] = .ok (.frameReservedTag 0x00#8, []) ∧
  decodeRun [0x03#8, 0xDE#8, 0xAD#8, 0xBE#8, 0xEF#8] = .ok (.lit [0xDE#8, 0xAD#8, 0xBE#8, 0xEF#8], []) ∧
  decodeRun [0xFD#8, 0x2A#8] = .ok (.rep 4 0x2A#8, []) ∧
  decodeRun [0x80#8] = .ok (.runReserved, [])

/-! ## The Run-Length Codec (40_rle_codec.md) -/

/-- R100, which the spec derives from R94 and R96: decoding what the encoder makes gives the input back. -/
def Obligations.RunLengthRoundTrip : Prop :=
  ∀ x : List Byte, rleDecode (rleEncode x) = .ok x

/-- R98 and the 22 of R117, which the spec derives from R96: the size of what the encoder makes. -/
def Obligations.RleEncodeSize : Prop :=
  rleEncode [] = [] ∧
  (∀ x : List Byte, (rleEncode x).length ≤ 2 * x.length ∧ (x ≠ [] → 2 ≤ (rleEncode x).length) ∧
    (x.length = 16 → (rleEncode x).length ≤ 22)) ∧
  ∃ x : List Byte, x.length = 16 ∧ (rleEncode x).length = 22

/-- R99, which the spec derives from R96: what the encoder never emits. -/
def Obligations.EncoderNeverEmitsReserved : Prop :=
  ∀ x : List Byte,
    (∀ i ∈ rleRecords x,
      (streamBytes i).head? ≠ some 0x80#8 ∧
      ((∃ d : List Byte, i = .lit d ∧ 1 ≤ d.length ∧ d.length ≤ 128 ∧ ∀ j, j + 1 < d.length → d[j]? ≠ d[j + 1]?) ∨
        (∃ (n : Nat) (b : Byte), i = .rep n b ∧ 2 ≤ n ∧ n ≤ 128))) ∧
    (∀ (j : Nat) (d e : List Byte), (rleRecords x)[j]? = some (.lit d) → (rleRecords x)[j + 1]? = some (.lit e) →
      d.length = 128)

/-- R102, which the spec derives from R91 and R92: the size of what decoding gives. -/
def Obligations.RleDecodeSize : Prop :=
  ∀ p out : List Byte, rleDecode p = .ok out →
    p.length ≤ 2 * out.length ∧ out.length ≤ 64 * p.length ∧ (out.length = 16 → 2 ≤ p.length ∧ p.length ≤ 32)

/-- R90, R94: decoding succeeds on exactly the packed buffers, with what they stand for; otherwise the first record that is
not well-formed decides the error, and its control byte's offset is told. -/
def Obligations.RleDecodeAcceptsExactlyPackedBuffers : Prop :=
  (∀ p out : List Byte, rleDecode p = .ok out ↔ ∃ rs : List Instr, PackedAs p rs ∧ out = rs.flatMap recordData) ∧
  (∀ (p : List Byte) (K : ErrKind) (j : Nat), rleDecode p = .error (K, j) ↔
    ∃ (q : List Byte) (rs : List Instr), PackedAs (p.take j) rs ∧ p.take j ++ q = p ∧ (p.take j).length = j ∧ q ≠ [] ∧
      recParse q = .error K)

/-- R91, R92, R93: what a record stands for and what it consumes, or its error. -/
def Obligations.RunRecordMeaning : Prop :=
  ∀ (c : Byte) (rest : List Byte),
    (c.toNat ≤ 127 → rest.length < c.toNat + 1 → recParse (c :: rest) = .error .rleTrunc) ∧
    (c.toNat ≤ 127 → c.toNat + 1 ≤ rest.length →
      recParse (c :: rest) = .ok (c.toNat + 2, rest.take (c.toNat + 1))) ∧
    (c = 0x80#8 → recParse (c :: rest) = .error .rleRsvd) ∧
    (129 ≤ c.toNat → rest = [] → recParse (c :: rest) = .error .rleTrunc) ∧
    (129 ≤ c.toNat → ∀ (b : Byte) (r : List Byte), rest = b :: r →
      recParse (c :: rest) = .ok (2, List.replicate (257 - c.toNat) b))

/-- R96: `RunLen` is the length of the longest run of the first byte, at most 128; a run of two or more becomes a repeat
run; else a literal run is as long as its bytes start no run of two or more, at most 128; the loop goes on behind it. -/
def Obligations.ReferenceEncoderRuns : Prop :=
  rleEncode [] = [] ∧
  ∀ (b : Byte) (xs : List Byte),
    (1 ≤ runLen (b :: xs) ∧ runLen (b :: xs) ≤ 128 ∧ runLen (b :: xs) ≤ (b :: xs).length ∧
      (∀ j, j < runLen (b :: xs) → (b :: xs)[j]? = some b) ∧
      (runLen (b :: xs) = 128 ∨ (b :: xs)[runLen (b :: xs)]? ≠ some b)) ∧
    (2 ≤ runLen (b :: xs) →
      rleEncode (b :: xs) =
        [BitVec.ofNat 8 ((257 - runLen (b :: xs)) % 256), b] ++ rleEncode ((b :: xs).drop (runLen (b :: xs)))) ∧
    (runLen (b :: xs) = 1 →
      ∃ k, 1 ≤ k ∧ k ≤ 128 ∧ k ≤ (b :: xs).length ∧
        (∀ j, 1 ≤ j → j < k → runLen ((b :: xs).drop j) = 1) ∧
        (k = 128 ∨ k = (b :: xs).length ∨ runLen ((b :: xs).drop k) ≠ 1) ∧
        rleEncode (b :: xs) = BitVec.ofNat 8 (k - 1) :: (b :: xs).take k ++ rleEncode ((b :: xs).drop k))

/-! ## The Transfer Frame Codec (41_transfer_frame.md) -/

/-- R111: the number of lines, and each line's bytes and padding. -/
def Obligations.LineSplitPartition : Prop :=
  ∀ x : List Byte,
    (lineSplit x).length = (x.length + 15) / 16 ∧
    ∀ j, j < (x.length + 15) / 16 →
      (lineSplit x)[j]? =
        some ((x.take (min (16 * j + 16) x.length)).drop (16 * j) ++
          List.replicate (16 - (min (16 * j + 16) x.length - 16 * j)) 0#8)

/-- R112, R116: the zero test first, then the compression type. -/
def Obligations.FrameEncodeCases : Prop :=
  ∀ (line : List Byte) (comp : CompressionType), line.length = 16 →
    (line = List.replicate 16 0#8 → frameEncode line comp = [0x5A#8]) ∧
    (line ≠ List.replicate 16 0#8 → comp = .rle →
      frameEncode line comp =
        [0x47#8, BitVec.ofNat 8 ((rleEncode line).length % 256), BitVec.ofNat 8 ((rleEncode line).length / 256)] ++
          rleEncode line) ∧
    (line ≠ List.replicate 16 0#8 → comp = .raw → frameEncode line comp = [0x47#8, 0x10#8, 0x00#8] ++ line)

/-- R117, which the spec derives from R116 and R96: the sizes of encoded frames, both bounds reached. -/
def Obligations.FrameEncodeSizes : Prop :=
  (∀ line : List Byte, line.length = 16 → line ≠ List.replicate 16 0#8 →
    2 ≤ (rleEncode line).length ∧ (rleEncode line).length ≤ 22 ∧
    5 ≤ (frameEncode line .rle).length ∧ (frameEncode line .rle).length ≤ 25 ∧
    (frameEncode line .rle)[2]? = some 0x00#8 ∧ (frameEncode line .raw).length = 19) ∧
  (∀ comp : CompressionType, (frameEncode (List.replicate 16 0#8) comp).length = 1) ∧
  (∃ line : List Byte, line.length = 16 ∧ line ≠ List.replicate 16 0#8 ∧ (frameEncode line .rle).length = 5) ∧
  (∃ line : List Byte, line.length = 16 ∧ line ≠ List.replicate 16 0#8 ∧ (frameEncode line .rle).length = 25)

/-- R113, R114, R120: the checks in their order, and what a frame that parses gives. -/
def Obligations.FrameParseCases : Prop :=
  ∀ comp : CompressionType,
    (∀ rest : List Byte, frameParse comp (0x5A#8 :: rest) = .ok (1, List.replicate 16 0#8)) ∧
    (∀ (tag : Byte) (rest : List Byte), tag ≠ 0x5A#8 → tag ≠ 0x47#8 → frameParse comp (tag :: rest) = .error .tag) ∧
    (∀ rest : List Byte, rest.length < 2 → frameParse comp (0x47#8 :: rest) = .error .frameTrunc) ∧
    (∀ (lo hi : Byte) (body : List Byte), body.length < lo.toNat + 256 * hi.toNat →
      frameParse comp (0x47#8 :: lo :: hi :: body) = .error .frameTrunc) ∧
    (∀ (lo hi : Byte) (body p : List Byte), lo.toNat + 256 * hi.toNat ≤ body.length →
      p = body.take (lo.toNat + 256 * hi.toNat) →
      (comp = .raw → p.length ≠ 16 → frameParse comp (0x47#8 :: lo :: hi :: body) = .error .rawLen) ∧
      (comp = .raw → p.length = 16 → frameParse comp (0x47#8 :: lo :: hi :: body) = .ok (19, p)) ∧
      (comp = .rle → ∀ (K : ErrKind) (j : Nat), rleDecode p = .error (K, j) →
        frameParse comp (0x47#8 :: lo :: hi :: body) = .error K) ∧
      (comp = .rle → ∀ d : List Byte, rleDecode p = .ok d → d.length ≠ 16 →
        frameParse comp (0x47#8 :: lo :: hi :: body) = .error .lineLen) ∧
      (comp = .rle → ∀ d : List Byte, rleDecode p = .ok d → d.length = 16 →
        frameParse comp (0x47#8 :: lo :: hi :: body) = .ok (3 + (lo.toNat + 256 * hi.toNat), d))) ∧
    (∀ (b line : List Byte) (c : Nat), frameParse comp b = .ok (c, line) →
      line.length = 16 ∧ 1 ≤ c ∧ c ≤ b.length)

/-- R121: the loop, the error's offset and the lines before it, and whole lines only. -/
def Obligations.DecodeTransferLoop : Prop :=
  ∀ comp : CompressionType,
    decodeTransfer [] comp = .ok [] ∧
    (∀ (b : Byte) (xs : List Byte) (K : ErrKind), frameParse comp (b :: xs) = .error K →
      decodeTransfer (b :: xs) comp = .error (K, 0, [])) ∧
    (∀ (b : Byte) (xs line : List Byte) (c : Nat), frameParse comp (b :: xs) = .ok (c, line) →
      (∀ out : List Byte, decodeTransfer ((b :: xs).drop c) comp = .ok out →
        decodeTransfer (b :: xs) comp = .ok (line ++ out)) ∧
      (∀ (K : ErrKind) (pos : Nat) (pre : List Byte), decodeTransfer ((b :: xs).drop c) comp = .error (K, pos, pre) →
        decodeTransfer (b :: xs) comp = .error (K, c + pos, line ++ pre))) ∧
    (∀ x out : List Byte, decodeTransfer x comp = .ok out → out.length % 16 = 0) ∧
    (∀ (x : List Byte) (K : ErrKind) (pos : Nat) (pre : List Byte), decodeTransfer x comp = .error (K, pos, pre) →
      pre.length % 16 = 0)

/-- R122, which the spec derives from R111, R116, R120, R121: decoding an encoded transfer gives the padded bitmap back. -/
def Obligations.TransferRoundTrip : Prop :=
  ∀ (x : List Byte) (comp : CompressionType),
    decodeTransfer (encodeTransfer x comp) comp = .ok (x ++ padding x.length)

/-- R95 (a), (b) are all a round trip of a transfer needs: it holds for every encoder that meets them. -/
def Obligations.AnyConformingEncoderRoundTrip : Prop :=
  ∀ E : List Byte → List Byte, ConformingEncoder E →
    ∀ (x : List Byte) (comp : CompressionType),
      decodeTransfer (encodeTransferWith E x comp) comp = .ok (x ++ padding x.length)

/-! ## Commands (42_job_control.md part 1) -/

/-- R132: `CLR`; in `IDLE` it changes nothing, while busy it is ignored. -/
def Obligations.ClearCommand : Prop :=
  (∀ s : State, s.st ≠ .busy →
    exec .clr s = .next { s with
      st := .idle, err := false, errCode := 0#4, op := 0#3, comp := .raw,
      inPos := 0#32, outLen := 0#32, unitCnt := 0#32, errPos := 0#32 }) ∧
  (∀ s t : State, s.st ≠ .busy → exec .clr s = .next t → t.status = 0x00000000#32) ∧
  (∀ s : State, StateInv s → s.st = .idle → exec .clr s = .next s) ∧
  (∀ s : State, s.st = .busy → exec .clr s = .next s)

/-- R131: the four job commands, and the fields of their words. -/
def Obligations.JobStart : Prop :=
  (∀ (s : State) (comp : CompressionType), s.st ≠ .busy →
    exec (.encXfer comp) s = .next { s with
      st := .busy, err := false, errCode := 0#4, op := 1#3, comp := comp,
      inPos := 0#32, outLen := 0#32, unitCnt := 0#32, errPos := 0#32 } ∧
    exec (.decXfer comp) s = .next { s with
      st := .busy, err := false, errCode := 0#4, op := 2#3, comp := comp,
      inPos := 0#32, outLen := 0#32, unitCnt := 0#32, errPos := 0#32 } ∧
    exec .rleEnc s = .next { s with
      st := .busy, err := false, errCode := 0#4, op := 3#3, comp := .raw,
      inPos := 0#32, outLen := 0#32, unitCnt := 0#32, errPos := 0#32 } ∧
    exec .rleDec s = .next { s with
      st := .busy, err := false, errCode := 0#4, op := 4#3, comp := .raw,
      inPos := 0#32, outLen := 0#32, unitCnt := 0#32, errPos := 0#32 }) ∧
  (∀ (s t : State) (w : Word),
    w ∈ [0x001#32, 0x101#32, 0x002#32, 0x102#32, 0x003#32, 0x004#32] → s.st ≠ .busy →
    exec (decodeCmd w) s = .next t →
    t.op = w.extractLsb' 0 3 ∧ t.comp = (if w.getLsbD 8 = true then .rle else .raw))

/-- R133: an illegal word's effect, and the status of the spec's example. For a legal word, which is no well-formed operand, the
first clause is the model's (DESIGN CHOICE, log 19). -/
def Obligations.IllegalCommandWord : Prop :=
  (∀ (s : State) (w : Word), s.st ≠ .busy →
    exec (.cmdIllegal w) s = .next { s with
      st := .done, err := true, errCode := 7#4, op := w.extractLsb' 0 3,
      comp := (if w.getLsbD 8 = true then .rle else .raw),
      inPos := 0#32, outLen := 0#32, unitCnt := 0#32, errPos := 0#32 }) ∧
  (∀ (s t : State), s.st ≠ .busy → exec (decodeCmd 0x00000005#32) s = .next t → t.status = 0x00050706#32)

/-- R130: a write to `CMD` is ignored while a job runs; else a job word starts its job, zero clears, and any other word is
illegal. -/
def Obligations.CommandWriteDispatch : Prop :=
  ∀ (s : State) (w : Word),
    (s.st = .busy → hostStep (.writeReg .word 0x00 w) s = .next s) ∧
    (s.st ≠ .busy → w ∈ [0x001#32, 0x101#32, 0x002#32, 0x102#32, 0x003#32, 0x004#32] →
      hostStep (.writeReg .word 0x00 w) s =
        .next (s.startJob (w.extractLsb' 0 3) (if w.getLsbD 8 = true then .rle else .raw))) ∧
    (s.st ≠ .busy → w = 0x000#32 → hostStep (.writeReg .word 0x00 w) s = .next s.clearStatus) ∧
    (s.st ≠ .busy → w ∉ [0x000#32, 0x001#32, 0x101#32, 0x002#32, 0x102#32, 0x003#32, 0x004#32] →
      hostStep (.writeReg .word 0x00 w) s = .next (s.illegalCommand w))

/-- The frame of the six CMD rows, for every command word: `IN_LEN`, both queues, the turns to come and what the host has
been told stay. -/
def Obligations.CommandFrame : Prop :=
  ∀ (s t : State) (w : Word), exec (decodeCmd w) s = .next t →
    t.inLen = s.inLen ∧ t.inq = s.inq ∧ t.outq = s.outq ∧ t.turns = s.turns ∧ t.seen = s.seen

/-- R28: every bit of `STATUS`, writes to it ignored, and the fields an illegal word latches (for a legal word, which is no
well-formed operand, the model's: DESIGN CHOICE, log 19). -/
def Obligations.StatusWordLayout : Prop :=
  (∀ s : State,
    s.status.getLsbD 0 = decide (s.st = .busy) ∧
    s.status.getLsbD 1 = decide (s.st = .done) ∧
    s.status.getLsbD 2 = s.err ∧
    s.status.extractLsb' 3 5 = 0#5 ∧
    s.status.extractLsb' 8 4 = s.errCode ∧
    s.status.extractLsb' 12 4 = 0#4 ∧
    s.status.extractLsb' 16 3 = s.op ∧
    s.status.extractLsb' 19 5 = 0#5 ∧
    s.status.getLsbD 24 = decide (s.comp = .rle) ∧
    s.status.extractLsb' 25 7 = 0#7) ∧
  (∀ (s : State) (v : Word), hostStep (.writeReg .word 0x08 v) s = .next s) ∧
  (∀ (s t : State) (w : Word), s.st ≠ .busy → exec (.cmdIllegal w) s = .next t →
    t.status.extractLsb' 16 3 = w.extractLsb' 0 3 ∧ t.status.getLsbD 24 = w.getLsbD 8)

/-! ## Frames and run records as instructions -/

/-- R113, R138: a `G` frame whole in the queued input of a running `DEC_XFER` gives its line (for a payload above 65535 bytes the
model's: DESIGN CHOICE, log 19). -/
def Obligations.GFrameUnit : Prop :=
  ∀ (s : State) (p line : List Byte), s.st = .busy → s.op = 2#3 → 3 + p.length ≤ s.ready →
    (s.comp = .raw → p.length = 16 → line = p →
      exec (.g p) s = .next { s with
        inq := s.inq.drop (3 + p.length), inPos := s.inPos + BitVec.ofNat 32 (3 + p.length),
        outq := s.outq ++ line, outLen := s.outLen + 16#32, unitCnt := s.unitCnt + 1#32 }) ∧
    (s.comp = .rle → rleDecode p = .ok line → line.length = 16 →
      exec (.g p) s = .next { s with
        inq := s.inq.drop (3 + p.length), inPos := s.inPos + BitVec.ofNat 32 (3 + p.length),
        outq := s.outq ++ line, outLen := s.outLen + 16#32, unitCnt := s.unitCnt + 1#32 })

/-- R113, R139: a `G` frame in error faults once all the rest of the job's input is queued, and holds until then (for a payload
above 65535 bytes the model's: DESIGN CHOICE, log 19). -/
def Obligations.GFrameFaults : Prop :=
  ∀ (s : State) (p : List Byte) (K : ErrKind), s.st = .busy → s.op = 2#3 → 3 + p.length ≤ s.ready →
    ((s.comp = .raw ∧ p.length ≠ 16 ∧ K = .rawLen) ∨
      (s.comp = .rle ∧ ∃ j, rleDecode p = .error (K, j)) ∨
      (s.comp = .rle ∧ K = .lineLen ∧ ∃ d : List Byte, rleDecode p = .ok d ∧ d.length ≠ 16)) →
    (s.ready = s.rem → exec (.g p) s = .next (s.faultEntry K)) ∧
    (s.ready ≠ s.rem → exec (.g p) s = .next s)

/-- R114, R138: a `Z` frame of a running `DEC_XFER` gives sixteen zero bytes. -/
def Obligations.ZFrameUnit : Prop :=
  ∀ s : State, s.st = .busy → s.op = 2#3 → 1 ≤ s.ready →
    exec .z s = .next { s with
      inq := s.inq.drop 1, inPos := s.inPos + 1#32,
      outq := s.outq ++ List.replicate 16 0#8, outLen := s.outLen + 16#32, unitCnt := s.unitCnt + 1#32 }

/-- R115, R139: a reserved tag faults with `TAG` once all the rest of the job's input is queued, and holds until then (for the
tags of `G` and `Z` the model's: DESIGN CHOICE, log 19). -/
def Obligations.ReservedTagFaults : Prop :=
  ∀ (s : State) (tag : Byte), s.st = .busy → s.op = 2#3 → 1 ≤ s.ready →
    (s.ready = s.rem → exec (.frameReservedTag tag) s = .next (s.faultEntry .tag)) ∧
    (s.ready ≠ s.rem → exec (.frameReservedTag tag) s = .next s)

/-- R91, R92, R143: the records of a running `RLE_DEC` (for data and counts out of range the model's: DESIGN CHOICE, log 19). -/
def Obligations.RunRecordUnits : Prop :=
  (∀ (s : State) (d : List Byte), s.st = .busy → s.op = 4#3 → d.length + 1 ≤ s.ready →
    exec (.lit d) s = .next { s with
      inq := s.inq.drop (d.length + 1), inPos := s.inPos + BitVec.ofNat 32 (d.length + 1),
      outq := s.outq ++ d, outLen := s.outLen + BitVec.ofNat 32 d.length, unitCnt := s.unitCnt + 1#32 }) ∧
  (∀ (s : State) (n : Nat) (b : Byte), s.st = .busy → s.op = 4#3 → 2 ≤ s.ready →
    exec (.rep n b) s = .next { s with
      inq := s.inq.drop 2, inPos := s.inPos + 2#32,
      outq := s.outq ++ List.replicate n b, outLen := s.outLen + BitVec.ofNat 32 n, unitCnt := s.unitCnt + 1#32 })

/-- R93, R144: the reserved control byte faults with `RLE_RSVD` once all the rest of the job's input is queued, and holds until
then. -/
def Obligations.ReservedControlFaults : Prop :=
  ∀ s : State, s.st = .busy → s.op = 4#3 → 1 ≤ s.ready →
    (s.ready = s.rem → exec .runReserved s = .next (s.faultEntry .rleRsvd)) ∧
    (s.ready ≠ s.rem → exec .runReserved s = .next s)

/-- The frame of the six FRAME and RUN rows: operands, latched command, turns and what the host was told stay. Either nothing
changes; or the instruction's own bytes leave IN, output is only appended and the error registers stay; or a fault is
entered, which changes no byte of OUT and neither output count. Terms that are not well-formed are the model's (DESIGN CHOICE,
log 19). -/
def Obligations.UnitInstrFrame : Prop :=
  ∀ (i : Instr) (s t : State), isFrame i = true ∨ isRun i = true → exec i s = .next t →
    t.inLen = s.inLen ∧ t.op = s.op ∧ t.comp = s.comp ∧ t.turns = s.turns ∧ t.seen = s.seen ∧
    (t = s ∨
      (t.st = .busy ∧ t.err = s.err ∧ t.errCode = s.errCode ∧ t.errPos = s.errPos ∧
        t.inq = s.inq.drop (streamBytes i).length ∧ t.inPos = s.inPos + BitVec.ofNat 32 (streamBytes i).length ∧
        t.unitCnt = s.unitCnt + 1#32 ∧ t.outq.take s.outq.length = s.outq ∧
        t.outLen = s.outLen + BitVec.ofNat 32 (t.outq.length - s.outq.length)) ∨
      (t.st = .done ∧ t.err = true ∧ t.errPos = s.inPos ∧ t.inq = s.inq.drop s.rem ∧
        t.inPos = s.inPos + BitVec.ofNat 32 s.rem ∧ t.outq = s.outq ∧ t.outLen = s.outLen ∧ t.unitCnt = s.unitCnt))

/-- R134 gives the engine no step outside a running job, and no step of one operation in a job of another: there a frame or
record does nothing. That `exec` answers the state unchanged is the model's reading (DEDUCED, log 8; for terms that are not
well-formed DESIGN CHOICE, log 19). -/
def Obligations.UnitOutsideItsJob : Prop :=
  ∀ (i : Instr) (s : State),
    (isFrame i = true → s.st ≠ .busy ∨ s.op ≠ 2#3 → exec i s = .next s) ∧
    (isRun i = true → s.st ≠ .busy ∨ s.op ≠ 4#3 → exec i s = .next s)

/-! ## Steps -/

/-- A step takes the next turn off and lets that agent move; a command write runs the decoded word, and the engine's turn in a
decoding job runs the frame or record decoded from the queued input. -/
def Obligations.DecodedInstrRuns : Prop :=
  (∀ s : State, s.nextTurn = .engine → step s = engineStep { s with turns := s.turns.tail }) ∧
  (∀ (s : State) (a : HostAction), s.nextTurn = .host a → step s = hostStep a { s with turns := s.turns.tail }) ∧
  (∀ (s : State) (w : Word), s.nextTurn = .host (.writeReg .word 0x00 w) →
    step s = exec (decodeCmd w) { s with turns := s.turns.tail }) ∧
  (∀ (s : State) (i : Instr) (rest : List Byte), s.nextTurn = .engine → s.st = .busy → s.op = 2#3 → 1 ≤ s.rem →
    decodeFrame s.window = .ok (i, rest) → step s = exec i { s with turns := s.turns.tail }) ∧
  (∀ (s : State) (i : Instr) (rest : List Byte), s.nextTurn = .engine → s.st = .busy → s.op = 4#3 → 1 ≤ s.rem →
    decodeRun s.window = .ok (i, rest) → step s = exec i { s with turns := s.turns.tail })

/-- R135: the completion step, and a job with no input. -/
def Obligations.CompletionStep : Prop :=
  (∀ s : State, s.st = .busy → s.inPos = s.inLen → engineStep s = .next { s with st := .done }) ∧
  (∀ (s : State) (op : BitVec 3) (comp : CompressionType), s.inLen = 0#32 →
    engineStep (s.startJob op comp) = .next { s.startJob op comp with st := .done })

/-- R136: the unit step of `ENC_XFER`, and when it holds. -/
def Obligations.EncXferUnitStep : Prop :=
  ∀ (s : State) (m : Nat), s.st = .busy → s.op = 1#3 → 1 ≤ s.rem → m = min 16 s.rem →
    (m ≤ s.inq.length → ∀ f : List Byte, f = frameEncode (s.inq.take m ++ List.replicate (16 - m) 0#8) s.comp →
      engineStep s = .next { s with
        inq := s.inq.drop m, inPos := s.inPos + BitVec.ofNat 32 m,
        outq := s.outq ++ f, outLen := s.outLen + BitVec.ofNat 32 f.length, unitCnt := s.unitCnt + 1#32 }) ∧
    (s.inq.length < m → engineStep s = .next s)

/-- R138, R139: the engine's step of a `DEC_XFER` job is `FrameParse` on the queued part of its input. -/
def Obligations.DecXferStep : Prop :=
  ∀ s : State, s.st = .busy → s.op = 2#3 → 1 ≤ s.rem →
    (∀ (c : Nat) (line : List Byte), frameParse s.comp s.window = .ok (c, line) →
      engineStep s = .next { s with
        inq := s.inq.drop c, inPos := s.inPos + BitVec.ofNat 32 c,
        outq := s.outq ++ line, outLen := s.outLen + 16#32, unitCnt := s.unitCnt + 1#32 }) ∧
    (∀ K : ErrKind, frameParse s.comp s.window = .error K →
      (s.ready = s.rem → engineStep s = .next (s.faultEntry K)) ∧
      (s.ready ≠ s.rem → engineStep s = .next s))

/-- R141: the unit step; 129 bytes of look-ahead decide it; and the units of a job make up `RleEncode`. -/
def Obligations.RleEncUnitStep : Prop :=
  (∀ (s : State) (w : Nat), s.st = .busy → s.op = 3#3 → 1 ≤ s.rem → w = min s.rem 129 →
    (w ≤ s.inq.length → ∀ (c : Nat) (i : Instr), firstRun (s.inq.take w) = (c, i) →
      engineStep s = .next { s with
        inq := s.inq.drop c, inPos := s.inPos + BitVec.ofNat 32 c,
        outq := s.outq ++ streamBytes i, outLen := s.outLen + BitVec.ofNat 32 (streamBytes i).length,
        unitCnt := s.unitCnt + 1#32 }) ∧
    (s.inq.length < w → engineStep s = .next s)) ∧
  (∀ (y : List Byte) (c : Nat) (i : Instr), y ≠ [] → firstRun y = (c, i) →
    firstRun (y.take 129) = (c, i) ∧ 1 ≤ c ∧ c ≤ 128 ∧ c ≤ y.length ∧
    2 ≤ (streamBytes i).length ∧ (streamBytes i).length ≤ 129 ∧
    rleEncode y = streamBytes i ++ rleEncode (y.drop c))

/-- R143, R144: the engine's step of an `RLE_DEC` job is `RecParse` on the queued part of its input. -/
def Obligations.RleDecStep : Prop :=
  ∀ s : State, s.st = .busy → s.op = 4#3 → 1 ≤ s.rem →
    (∀ (c : Nat) (d : List Byte), recParse s.window = .ok (c, d) →
      engineStep s = .next { s with
        inq := s.inq.drop c, inPos := s.inPos + BitVec.ofNat 32 c,
        outq := s.outq ++ d, outLen := s.outLen + BitVec.ofNat 32 d.length, unitCnt := s.unitCnt + 1#32 }) ∧
    (∀ K : ErrKind, recParse s.window = .error K →
      (s.ready = s.rem → engineStep s = .next (s.faultEntry K)) ∧
      (s.ready ≠ s.rem → engineStep s = .next s))

/-- R134: outside a running job the engine takes no step. -/
def Obligations.EngineHolds : Prop :=
  ∀ s : State, s.st ≠ .busy → engineStep s = .next s

/-- R62, which the spec derives from R52 and R56: an engine step that is taken is the same step after a push, and a pop that
delivers a byte changes nothing for the engine. -/
def Obligations.EngineCommutesWithStreams : Prop :=
  (∀ (s t : State) (b : Byte), engineStep s = .next t → t ≠ s →
    engineStep { s with inq := s.inq ++ [b] } = .next { t with inq := t.inq ++ [b] }) ∧
  (∀ s : State, s.outq ≠ [] → andThen (hostPop s) engineStep = andThen (engineStep s) hostPop)

/-- R145, which the spec derives from R135 to R144: with its input queued the engine always has a step, which ends the job or
pops at least one byte. -/
def Obligations.EngineProgress : Prop :=
  ∀ s : State, StateInv s → s.st = .busy → s.ready = s.rem →
    ∃ t, engineStep s = .next t ∧ t ≠ s ∧
      ((s.inPos = s.inLen ∧ t = { s with st := .done }) ∨
        (s.inPos.toNat < t.inPos.toNat ∧ t.inPos.toNat ≤ s.inLen.toNat))

/-- R51, R53, R61: the engine writes no operand register and no turn, tells the host nothing, removes from the head of IN
exactly what its cursor counts and at most what is queued of the job's input, and only appends to OUT, counted in
`OUT_LEN`. -/
def Obligations.EngineFrame : Prop :=
  ∀ s t : State, engineStep s = .next t →
    t.inLen = s.inLen ∧ t.op = s.op ∧ t.comp = s.comp ∧ t.turns = s.turns ∧ t.seen = s.seen ∧
    (∃ k, k ≤ s.ready ∧ t.inPos = s.inPos + BitVec.ofNat 32 k ∧ t.inq = s.inq.drop k) ∧
    t.outq.take s.outq.length = s.outq ∧
    t.outLen = s.outLen + BitVec.ofNat 32 (t.outq.length - s.outq.length)

/-- R152, which the spec derives from R133 to R144: which events set `STATUS.ERR`, and with which codes. -/
def Obligations.FaultKindsByOperation : Prop :=
  (∀ s t : State, s.err = false → engineStep s = .next t → t.err = true →
    (s.op = 2#3 ∧ s.comp = .rle ∧ t.errCode ∈ [1#4, 2#4, 4#4, 5#4, 6#4]) ∨
    (s.op = 2#3 ∧ s.comp = .raw ∧ t.errCode ∈ [1#4, 2#4, 3#4]) ∨
    (s.op = 4#3 ∧ t.errCode ∈ [4#4, 5#4])) ∧
  (∀ (s t : State) (a : HostAction), s.err = false → hostStep a s = .next t → t.err = true →
    ∃ w : Word, a = .writeReg .word 0x00 w ∧
      w ∉ [0x000#32, 0x001#32, 0x101#32, 0x002#32, 0x102#32, 0x003#32, 0x004#32] ∧ t.errCode = 7#4)

/-- R150, R156, R157: the codes, and what fault entry saves, drains and keeps. With fewer bytes queued than it drains, where no
fault step is enabled, IN becoming empty is the model's (DESIGN CHOICE, log 19). -/
def Obligations.FaultEntryRecords : Prop :=
  (errCodeOf .tag = 1#4 ∧ errCodeOf .frameTrunc = 2#4 ∧ errCodeOf .rawLen = 3#4 ∧ errCodeOf .rleTrunc = 4#4 ∧
    errCodeOf .rleRsvd = 5#4 ∧ errCodeOf .lineLen = 6#4 ∧ errCodeOf .cmd = 7#4) ∧
  (∀ (s : State) (K : ErrKind), s.inPos.toNat ≤ s.inLen.toNat →
    s.faultEntry K = { s with
      inq := s.inq.drop (s.inLen.toNat - s.inPos.toNat), inPos := s.inLen, errPos := s.inPos,
      errCode := errCodeOf K, err := true, st := .done })

/-! ## The host -/

/-- R25, R33, R34: what each aligned word reads as, with no other effect but that the host is told it (log 2). R33 speaks of
offsets up to the end of the platform's window; that every offset from 0x1C up reads 0 is the model's choice (DESIGN CHOICE,
log 5). -/
def Obligations.RegisterReads : Prop :=
  (∀ (s : State) (off : Nat), off % 4 = 0 →
    hostStep (.readReg .word off) s = .next { s with seen := s.seen ++ [.word off (s.readWord off)] }) ∧
  (∀ s : State,
    s.readWord 0x00 = 0#32 ∧ s.readWord 0x04 = s.inLen ∧ s.readWord 0x08 = s.status ∧ s.readWord 0x0C = s.inPos ∧
    s.readWord 0x10 = s.outLen ∧ s.readWord 0x14 = s.unitCnt ∧ s.readWord 0x18 = s.errPos ∧
    ∀ off : Nat, 0x1C ≤ off → s.readWord off = 0#32)

/-- R27, R28, R33: `IN_LEN` is stored unless a job runs; every other offset but `CMD` ignores a write. R33 speaks of offsets up
to the end of the platform's window; that every aligned offset beyond ignores a write too is the model's choice (DESIGN CHOICE,
log 5). -/
def Obligations.RegisterWrites : Prop :=
  ∀ (s : State) (v : Word),
    (s.st ≠ .busy → hostStep (.writeReg .word 0x04 v) s = .next { s with inLen := v }) ∧
    (s.st = .busy → hostStep (.writeReg .word 0x04 v) s = .next s) ∧
    (∀ off : Nat, off % 4 = 0 → 0x08 ≤ off → hostStep (.writeReg .word off v) s = .next s)

/-- R34: accesses the spec does not define are refused. -/
def Obligations.UndefinedAccessRefused : Prop :=
  ∀ (s : State) (off : Nat) (v : Word),
    hostStep (.readReg .byte off) s = .refused .subWordAccess ∧
    hostStep (.readReg .half off) s = .refused .subWordAccess ∧
    hostStep (.writeReg .byte off v) s = .refused .subWordAccess ∧
    hostStep (.writeReg .half off v) s = .refused .subWordAccess ∧
    (off % 4 ≠ 0 →
      hostStep (.readReg .word off) s = .refused .misalignedAccess ∧
      hostStep (.writeReg .word off v) s = .refused .misalignedAccess)

/-- R53, R36: the host's ends of the two queues. -/
def Obligations.StreamPrimitives : Prop :=
  (∀ (s : State) (b : Byte), hostStep (.inPush b) s = .next { s with inq := s.inq ++ [b] }) ∧
  (∀ (s : State) (b : Byte) (rest : List Byte), s.outq = b :: rest →
    hostStep .outPop s = .next { s with outq := rest, seen := s.seen ++ [.byte b] }) ∧
  (∀ s : State, s.outq = [] → hostStep .outPop s = .next s)

/-- R39, R170: reset, from any state, and at power-on. That the turns to come and what the host was told stay is the
model's (logs 1 and 2). -/
def Obligations.ResetLeaves : Prop :=
  (∀ s : State, hostStep .rst s = .next {
    st := .idle, inLen := 0#32, err := false, errCode := 0#4, op := 0#3, comp := .raw, inPos := 0#32, outLen := 0#32,
    unitCnt := 0#32, errPos := 0#32, inq := [], outq := [], turns := s.turns, seen := s.seen }) ∧
  State.reset.st = .idle ∧ State.reset.inLen = 0#32 ∧ State.reset.status = 0x00000000#32 ∧ State.reset.inPos = 0#32 ∧
  State.reset.outLen = 0#32 ∧ State.reset.unitCnt = 0#32 ∧ State.reset.errPos = 0#32 ∧ State.reset.inq = [] ∧
  State.reset.outq = []

/-! ## Whole-machine rules -/

/-- R40, which the spec derives from R21, R24, R29 and R130 to R146, and R31's bound: every step of the machine, from any state
that meets the invariants, keeps them. -/
def Obligations.StepKeepsInvariant : Prop :=
  ∀ s t : State, StateInv s → step s = .next t → StateInv t

/-- R40's invariants hold in the state of R39. -/
def Obligations.ResetMeetsInvariant : Prop := StateInv State.reset

/-- R21: the control state changes only on these events. -/
def Obligations.StateTransitions : Prop :=
  (∀ s : State,
    (s.st = .idle → s.status.getLsbD 0 = false ∧ s.status.getLsbD 1 = false) ∧
    (s.st = .busy → s.status.getLsbD 0 = true ∧ s.status.getLsbD 1 = false) ∧
    (s.st = .done → s.status.getLsbD 0 = false ∧ s.status.getLsbD 1 = true)) ∧
  (∀ s t : State, step s = .next t → t.st ≠ s.st →
    (s.nextTurn = .engine ∧ s.st = .busy ∧ t.st = .done) ∨
    (s.nextTurn = .host .rst ∧ t.st = .idle) ∨
    (∃ w : Word, s.nextTurn = .host (.writeReg .word 0x00 w) ∧
      ((s.st ≠ .busy ∧ w ∈ [0x001#32, 0x101#32, 0x002#32, 0x102#32, 0x003#32, 0x004#32] ∧ t.st = .busy) ∨
        (s.st = .idle ∧ w ∉ [0x000#32, 0x001#32, 0x101#32, 0x002#32, 0x102#32, 0x003#32, 0x004#32] ∧
          t.st = .done ∧ t.err = true) ∨
        (s.st = .done ∧ w = 0x000#32 ∧ t.st = .idle))))

/-- R137, R142, which the spec derives from R135, R136, R141: an encoding job with its input queued ends within `IN_LEN + 1`
steps with exactly the encoding of its input. With no turns given every step is the engine's (log 1). -/
def Obligations.EncodeJobResults : Prop :=
  (∀ s : State, ReadyJob s 1#3 →
    ∃ n, n ≤ s.inLen.toNat + 1 ∧
      Sys2Proof.core.run n s =
        .next (s.jobEnded (encodeTransfer s.jobInput s.comp) ((s.inLen.toNat + 15) / 16) none)) ∧
  (∀ s : State, ReadyJob s 3#3 →
    ∃ n, n ≤ s.inLen.toNat + 1 ∧
      Sys2Proof.core.run n s = .next (s.jobEnded (rleEncode s.jobInput) (rleRecords s.jobInput).length none))

/-- R140 and the last two rows of R146, which the spec derives from R135, R138, R139, R143, R144: a decoding job with its
input queued ends within `IN_LEN + 1` steps with what its input stands for, or with the first error, its position, and the
units before it. With no turns given every step is the engine's (log 1). -/
def Obligations.DecodeJobResults : Prop :=
  (∀ s : State, ReadyJob s 2#3 →
    (∀ bm : List Byte, decodeTransfer s.jobInput s.comp = .ok bm →
      ∃ n, n ≤ s.inLen.toNat + 1 ∧ Sys2Proof.core.run n s = .next (s.jobEnded bm (bm.length / 16) none)) ∧
    (∀ (K : ErrKind) (pos : Nat) (pre : List Byte), decodeTransfer s.jobInput s.comp = .error (K, pos, pre) →
      ∃ n, n ≤ s.inLen.toNat + 1 ∧
        Sys2Proof.core.run n s = .next (s.jobEnded pre (pre.length / 16) (some (K, pos))))) ∧
  (∀ s : State, ReadyJob s 4#3 →
    (∀ d : List Byte, rleDecode s.jobInput = .ok d →
      ∃ (rs : List Instr) (n : Nat), PackedAs s.jobInput rs ∧ n ≤ s.inLen.toNat + 1 ∧
        Sys2Proof.core.run n s = .next (s.jobEnded d rs.length none)) ∧
    (∀ (K : ErrKind) (j : Nat), rleDecode s.jobInput = .error (K, j) →
      ∃ (rs : List Instr) (n : Nat), PackedAs (s.jobInput.take j) rs ∧ n ≤ s.inLen.toNat + 1 ∧
        Sys2Proof.core.run n s = .next (s.jobEnded (rs.flatMap recordData) rs.length (some (K, j)))))

/-- R62, which the spec derives from R52, R56 and R134 to R146: however the host's pushes, pops and reads fall between the
engine's steps (log 1), a job that has ended has the result of its operation on its first `IN_LEN` bytes: the same registers
and the same bytes out, popped or still queued. -/
def Obligations.JobResultOfAnyInterleaving : Prop :=
  ∀ (s t : State) (op : BitVec 3) (k : Nat) (r : LoopEnd),
    FreshJob s op → 1 ≤ op.toNat → op.toNat ≤ 4 → (∀ x ∈ s.turns, quietTurn x = true) →
    r = jobResult op s.comp ((s.inq ++ pushedBytes s.turns).take s.inLen.toNat) →
    Sys2Proof.core.run k s = .next t → t.st = .done →
    t.inLen = s.inLen ∧ t.inPos = s.inLen ∧ t.op = op ∧ t.comp = s.comp ∧
    t.outLen = BitVec.ofNat 32 r.out.length ∧ t.unitCnt = BitVec.ofNat 32 r.units ∧
    t.err = r.err.isSome ∧ t.errCode = (r.err.map errCodeOf).getD 0#4 ∧
    t.errPos = (if r.err.isSome = true then BitVec.ofNat 32 r.pos else 0#32) ∧
    poppedBytes t.seen ++ t.outq = poppedBytes s.seen ++ s.outq ++ r.out
end

