-- ==== Sys2Proof/Laws/Codec.lean ====
section
/-! SUPPORT. What the pure functions of the codec answer: bounds of runs and units, and the equations of the loops without
their fuel. -/

namespace Sys2Proof.Machine

/-! ## Runs -/

theorem matchLen_le_cap (b : Byte) (cap : Nat) (xs : List Byte) : matchLen b cap xs ≤ cap := by
  induction xs generalizing cap with
  | nil => cases cap <;> simp [matchLen]
  | cons x xs ih =>
    cases cap with
    | zero => simp [matchLen]
    | succ cap =>
      have := ih cap
      simp only [matchLen]
      split <;> omega

theorem matchLen_le_length (b : Byte) (cap : Nat) (xs : List Byte) : matchLen b cap xs ≤ xs.length := by
  induction xs generalizing cap with
  | nil => cases cap <;> simp [matchLen]
  | cons x xs ih =>
    cases cap with
    | zero => simp [matchLen]
    | succ cap =>
      have := ih cap
      simp only [matchLen, List.length_cons]
      split <;> omega

@[simp] theorem runLen_nil : runLen [] = 0 := rfl

theorem runLen_cons (b : Byte) (xs : List Byte) : runLen (b :: xs) = matchLen b 127 xs + 1 := rfl

/-- A run is 1 to 128 bytes long and within its sequence (R96: "result in 1..128"). -/
theorem runLen_bounds (b : Byte) (xs : List Byte) :
    1 ≤ runLen (b :: xs) ∧ runLen (b :: xs) ≤ 128 ∧ runLen (b :: xs) ≤ (b :: xs).length := by
  have h1 := matchLen_le_cap b 127 xs
  have h2 := matchLen_le_length b 127 xs
  simp only [runLen_cons, List.length_cons]
  omega

theorem litExtra_le_cap (cap : Nat) (xs : List Byte) : litExtra cap xs ≤ cap := by
  induction xs generalizing cap with
  | nil => cases cap <;> simp [litExtra]
  | cons x xs ih =>
    cases cap with
    | zero => simp [litExtra]
    | succ cap =>
      have := ih cap
      simp only [litExtra]
      split <;> omega

theorem litExtra_le_length (cap : Nat) (xs : List Byte) : litExtra cap xs ≤ xs.length := by
  induction xs generalizing cap with
  | nil => cases cap <;> simp [litExtra]
  | cons x xs ih =>
    cases cap with
    | zero => simp [litExtra]
    | succ cap =>
      have := ih cap
      simp only [litExtra, List.length_cons]
      split <;> omega

theorem firstRun_of_repeat (b : Byte) (xs : List Byte) (h : 2 ≤ runLen (b :: xs)) :
    firstRun (b :: xs) = (runLen (b :: xs), .rep (runLen (b :: xs)) b) := by
  simp [firstRun, h]

theorem firstRun_of_single (b : Byte) (xs : List Byte) (h : runLen (b :: xs) < 2) :
    firstRun (b :: xs) = (litExtra 127 xs + 1, .lit ((b :: xs).take (litExtra 127 xs + 1))) := by
  simp only [firstRun]
  rw [if_neg (by omega)]

/-- A turn of the encoder's loop consumes 1 to 128 bytes of the input (R141). -/
theorem firstRun_consumes (b : Byte) (xs : List Byte) :
    1 ≤ (firstRun (b :: xs)).1 ∧ (firstRun (b :: xs)).1 ≤ 128 ∧ (firstRun (b :: xs)).1 ≤ (b :: xs).length := by
  have hr := runLen_bounds b xs
  have h1 := litExtra_le_cap 127 xs
  have h2 := litExtra_le_length 127 xs
  by_cases h : 2 ≤ runLen (b :: xs)
  · rw [firstRun_of_repeat b xs h]
    exact hr
  · rw [firstRun_of_single b xs (by omega)]
    simp only [List.length_cons]
    omega

/-! ## The encoder's loops without fuel -/

theorem rleRecordsFrom_fuel (fuel : Nat) (x : List Byte) (h : x.length ≤ fuel) :
    rleRecordsFrom fuel x = rleRecords x := by
  have key : ∀ (n f : Nat) (y : List Byte), y.length ≤ n → n ≤ f → rleRecordsFrom f y = rleRecordsFrom n y := by
    intro n
    induction n with
    | zero =>
      intro f y hy _
      have : y = [] := List.length_eq_zero_iff.mp (by omega)
      subst this
      cases f <;> rfl
    | succ n ih =>
      intro f y hy hf
      obtain ⟨f, rfl⟩ : ∃ g, f = g + 1 := ⟨f - 1, by omega⟩
      cases y with
      | nil => rfl
      | cons b xs =>
        have hc := firstRun_consumes b xs
        have hd : ((b :: xs).drop (firstRun (b :: xs)).1).length ≤ n := by
          simp only [List.length_drop]
          omega
        simp only [rleRecordsFrom]
        rw [ih f _ hd (by omega)]
  exact key x.length fuel x (Nat.le_refl _) h

@[simp] theorem rleRecords_nil : rleRecords [] = [] := rfl

/-- One turn of the encoder's loop (R96). -/
theorem rleRecords_cons (b : Byte) (xs : List Byte) :
    rleRecords (b :: xs) = (firstRun (b :: xs)).2 :: rleRecords ((b :: xs).drop (firstRun (b :: xs)).1) := by
  have hc := firstRun_consumes b xs
  have hd : ((b :: xs).drop (firstRun (b :: xs)).1).length ≤ xs.length := by
    simp only [List.length_drop, List.length_cons] at hc ⊢
    omega
  conv => lhs; simp only [rleRecords, List.length_cons, rleRecordsFrom]
  rw [rleRecordsFrom_fuel _ _ hd]

@[simp] theorem lineSplit_nil : lineSplit [] = [] := rfl

theorem lineSplitFrom_fuel (fuel : Nat) (x : List Byte) (h : x.length ≤ fuel) :
    lineSplitFrom fuel x = lineSplit x := by
  have key : ∀ (n f : Nat) (y : List Byte), y.length ≤ n → n ≤ f → lineSplitFrom f y = lineSplitFrom n y := by
    intro n
    induction n with
    | zero =>
      intro f y hy _
      have : y = [] := List.length_eq_zero_iff.mp (by omega)
      subst this
      cases f <;> rfl
    | succ n ih =>
      intro f y hy hf
      obtain ⟨f, rfl⟩ : ∃ g, f = g + 1 := ⟨f - 1, by omega⟩
      cases y with
      | nil => rfl
      | cons b xs =>
        have hd : ((b :: xs).drop 16).length ≤ n := by
          simp only [List.length_drop]
          omega
        simp only [lineSplitFrom]
        rw [ih f _ hd (by omega)]
  exact key x.length fuel x (Nat.le_refl _) h

/-- One line and the lines of the rest (R111). -/
theorem lineSplit_cons (b : Byte) (xs : List Byte) :
    lineSplit (b :: xs) = padLine ((b :: xs).take 16) :: lineSplit ((b :: xs).drop 16) := by
  have hd : ((b :: xs).drop 16).length ≤ xs.length := by
    simp only [List.length_drop, List.length_cons]
    omega
  conv => lhs; simp only [lineSplit, List.length_cons, lineSplitFrom]
  rw [lineSplitFrom_fuel _ _ hd]

/-! ## The decoders' loops without fuel -/

@[simp] theorem zeroLine_length : zeroLine.length = 16 := rfl

@[simp] theorem padLine_length (d : List Byte) (h : d.length ≤ 16) : (padLine d).length = 16 := by
  simp only [padLine, List.length_append, List.length_replicate]
  omega

/-- A run record that parses takes 2 bytes or more, all of them there (R72, R73). -/
theorem recParse_consumes {y d : List Byte} {c : Nat} (h : recParse y = .ok (c, d)) : 1 ≤ c ∧ c ≤ y.length := by
  rcases y with _ | ⟨c0, rest⟩
  · simp [recParse, decodeRun] at h
  · by_cases h1 : c0.toNat ≤ 0x7F
    · by_cases h2 : rest.length < c0.toNat + 1
      · simp [recParse, decodeRun, h1, h2] at h
      · simp only [recParse, decodeRun, if_pos h1, if_neg h2, List.length_take, Except.ok.injEq, Prod.mk.injEq] at h
        simp only [List.length_cons]
        omega
    · by_cases h2 : c0 = 0x80#8
      · simp [recParse, decodeRun, h2] at h
      · rcases rest with _ | ⟨b, rest⟩
        · simp [recParse, decodeRun, h1, h2] at h
        · simp only [recParse, decodeRun, if_neg h1, if_neg h2, Except.ok.injEq, Prod.mk.injEq] at h
          simp only [List.length_cons]
          omega

/-- A line a payload stands for has 16 bytes (R113). -/
theorem payloadLine_length {comp : CompressionType} {p line : List Byte} (h : payloadLine comp p = .ok line) :
    line.length = 16 := by
  cases comp with
  | raw =>
    simp only [payloadLine] at h
    split at h
    · cases h; assumption
    · cases h
  | rle =>
    simp only [payloadLine] at h
    split at h
    · cases h
    · split at h
      · cases h; assumption
      · cases h

/-- A frame that parses takes a byte or more, all of them there, and gives 16 bytes (R120). -/
theorem frameParse_consumes {comp : CompressionType} {b line : List Byte} {c : Nat}
    (h : frameParse comp b = .ok (c, line)) : 1 ≤ c ∧ c ≤ b.length ∧ line.length = 16 := by
  rcases b with _ | ⟨tag, rest⟩
  · simp [frameParse, decodeFrame] at h
  · by_cases h1 : tag = 0x5A#8
    · simp only [frameParse, decodeFrame, if_pos h1, Except.ok.injEq, Prod.mk.injEq] at h
      obtain ⟨rfl, rfl⟩ := h
      simp
    · by_cases h2 : tag = 0x47#8
      · rcases rest with _ | ⟨lo, _ | ⟨hi, body⟩⟩
        · simp [frameParse, decodeFrame, h2] at h
        · simp [frameParse, decodeFrame, h2] at h
        · by_cases h3 : body.length < un16 lo hi
          · simp [frameParse, decodeFrame, h2, h3] at h
          · simp only [frameParse, decodeFrame, if_neg h1, if_pos h2, if_neg h3] at h
            cases hp : payloadLine comp (body.take (un16 lo hi)) with
            | error K => simp [hp, Except.map] at h
            | ok l =>
              simp only [hp, Except.map, Except.ok.injEq, Prod.mk.injEq, List.length_take] at h
              obtain ⟨rfl, rfl⟩ := h
              refine ⟨by omega, ?_, payloadLine_length hp⟩
              simp only [List.length_cons]
              omega
      · simp [frameParse, decodeFrame, h1, h2] at h

/-- The loop of R94 and R121 does not depend on its fuel once there is a unit of it for each byte. -/
theorem parseLoop_fuel (parse : List Byte → Except ErrKind (Nat × List Byte))
    (hparse : ∀ y c d, parse y = .ok (c, d) → 1 ≤ c) (fuel : Nat) (b : List Byte) (h : b.length ≤ fuel) :
    parseLoop parse fuel b = parseLoop parse b.length b := by
  have key : ∀ (n f : Nat) (y : List Byte), y.length ≤ n → n ≤ f → parseLoop parse f y = parseLoop parse n y := by
    intro n
    induction n with
    | zero =>
      intro f y hy _
      have : y = [] := List.length_eq_zero_iff.mp (by omega)
      subst this
      cases f <;> rfl
    | succ n ih =>
      intro f y hy hf
      obtain ⟨f, rfl⟩ : ∃ g, f = g + 1 := ⟨f - 1, by omega⟩
      cases y with
      | nil => rfl
      | cons b xs =>
        simp only [parseLoop]
        cases hp : parse (b :: xs) with
        | error K => rfl
        | ok r =>
          obtain ⟨c, d⟩ := r
          have hc := hparse _ _ _ hp
          have hd : ((b :: xs).drop c).length ≤ n := by
            simp only [List.length_drop]
            omega
          simp only
          rw [ih f _ hd (by omega)]
  exact key b.length fuel b (Nat.le_refl _) h

theorem recParse_pos (y : List Byte) (c : Nat) (d : List Byte) (h : recParse y = .ok (c, d)) : 1 ≤ c :=
  (recParse_consumes h).1

theorem frameParse_pos (comp : CompressionType) (y : List Byte) (c : Nat) (d : List Byte)
    (h : frameParse comp y = .ok (c, d)) : 1 ≤ c := (frameParse_consumes h).1

@[simp] theorem rleLoop_nil : rleLoop [] = ⟨[], 0, 0, none⟩ := rfl

@[simp] theorem transferLoop_nil (comp : CompressionType) : transferLoop comp [] = ⟨[], 0, 0, none⟩ := rfl

/-- `RleDecode`'s loop stops at a record that does not parse (R94). -/
theorem rleLoop_error {b : Byte} {xs : List Byte} {K : ErrKind} (h : recParse (b :: xs) = .error K) :
    rleLoop (b :: xs) = ⟨[], 0, 0, some K⟩ := by
  simp only [rleLoop, List.length_cons, parseLoop, h]

/-- `RleDecode`'s loop goes on behind a record that parses (R94). -/
theorem rleLoop_ok {b : Byte} {xs d : List Byte} {c : Nat} (h : recParse (b :: xs) = .ok (c, d)) :
    rleLoop (b :: xs) = ⟨d ++ (rleLoop ((b :: xs).drop c)).out, (rleLoop ((b :: xs).drop c)).units + 1,
      (rleLoop ((b :: xs).drop c)).pos + c, (rleLoop ((b :: xs).drop c)).err⟩ := by
  have hc := recParse_consumes h
  have hd : ((b :: xs).drop c).length ≤ xs.length := by
    simp only [List.length_drop, List.length_cons]
    omega
  conv => lhs; simp only [rleLoop, List.length_cons, parseLoop, h]
  rw [parseLoop_fuel recParse recParse_pos _ _ hd]
  rfl

/-- `DecodeTransfer`'s loop stops at a frame that does not parse (R121). -/
theorem transferLoop_error {comp : CompressionType} {b : Byte} {xs : List Byte} {K : ErrKind}
    (h : frameParse comp (b :: xs) = .error K) : transferLoop comp (b :: xs) = ⟨[], 0, 0, some K⟩ := by
  simp only [transferLoop, List.length_cons, parseLoop, h]

/-- `DecodeTransfer`'s loop goes on behind a frame that parses (R121). -/
theorem transferLoop_ok {comp : CompressionType} {b : Byte} {xs line : List Byte} {c : Nat}
    (h : frameParse comp (b :: xs) = .ok (c, line)) :
    transferLoop comp (b :: xs) =
      ⟨line ++ (transferLoop comp ((b :: xs).drop c)).out, (transferLoop comp ((b :: xs).drop c)).units + 1,
        (transferLoop comp ((b :: xs).drop c)).pos + c, (transferLoop comp ((b :: xs).drop c)).err⟩ := by
  have hc := frameParse_consumes h
  have hd : ((b :: xs).drop c).length ≤ xs.length := by
    simp only [List.length_drop, List.length_cons]
    omega
  conv => lhs; simp only [transferLoop, List.length_cons, parseLoop, h]
  rw [parseLoop_fuel (frameParse comp) (frameParse_pos comp) _ _ hd]
  rfl

end Sys2Proof.Machine
end

