-- ==== Sys2Proof/Laws/State.lean ====
section
/-! SUPPORT. What each named operation leaves in each field of the state: one lemma per field per operation, so that no proof
unfolds a record update. -/

namespace Sys2Proof.Machine

/-! ## State.inPop -/

@[simp] theorem State.inPop_st (s : State) (k : Nat) : (s.inPop k).st = s.st := rfl
@[simp] theorem State.inPop_inLen (s : State) (k : Nat) : (s.inPop k).inLen = s.inLen := rfl
@[simp] theorem State.inPop_err (s : State) (k : Nat) : (s.inPop k).err = s.err := rfl
@[simp] theorem State.inPop_errCode (s : State) (k : Nat) : (s.inPop k).errCode = s.errCode := rfl
@[simp] theorem State.inPop_op (s : State) (k : Nat) : (s.inPop k).op = s.op := rfl
@[simp] theorem State.inPop_comp (s : State) (k : Nat) : (s.inPop k).comp = s.comp := rfl
@[simp] theorem State.inPop_inPos (s : State) (k : Nat) : (s.inPop k).inPos = s.inPos + BitVec.ofNat 32 k := rfl
@[simp] theorem State.inPop_outLen (s : State) (k : Nat) : (s.inPop k).outLen = s.outLen := rfl
@[simp] theorem State.inPop_unitCnt (s : State) (k : Nat) : (s.inPop k).unitCnt = s.unitCnt := rfl
@[simp] theorem State.inPop_errPos (s : State) (k : Nat) : (s.inPop k).errPos = s.errPos := rfl
@[simp] theorem State.inPop_inq (s : State) (k : Nat) : (s.inPop k).inq = s.inq.drop k := rfl
@[simp] theorem State.inPop_outq (s : State) (k : Nat) : (s.inPop k).outq = s.outq := rfl
@[simp] theorem State.inPop_turns (s : State) (k : Nat) : (s.inPop k).turns = s.turns := rfl
@[simp] theorem State.inPop_seen (s : State) (k : Nat) : (s.inPop k).seen = s.seen := rfl

/-! ## State.outPush -/

@[simp] theorem State.outPush_st (s : State) (bs : List Byte) : (s.outPush bs).st = s.st := rfl
@[simp] theorem State.outPush_inLen (s : State) (bs : List Byte) : (s.outPush bs).inLen = s.inLen := rfl
@[simp] theorem State.outPush_err (s : State) (bs : List Byte) : (s.outPush bs).err = s.err := rfl
@[simp] theorem State.outPush_errCode (s : State) (bs : List Byte) : (s.outPush bs).errCode = s.errCode := rfl
@[simp] theorem State.outPush_op (s : State) (bs : List Byte) : (s.outPush bs).op = s.op := rfl
@[simp] theorem State.outPush_comp (s : State) (bs : List Byte) : (s.outPush bs).comp = s.comp := rfl
@[simp] theorem State.outPush_inPos (s : State) (bs : List Byte) : (s.outPush bs).inPos = s.inPos := rfl
@[simp] theorem State.outPush_outLen (s : State) (bs : List Byte) : (s.outPush bs).outLen = s.outLen + BitVec.ofNat 32 bs.length := rfl
@[simp] theorem State.outPush_unitCnt (s : State) (bs : List Byte) : (s.outPush bs).unitCnt = s.unitCnt := rfl
@[simp] theorem State.outPush_errPos (s : State) (bs : List Byte) : (s.outPush bs).errPos = s.errPos := rfl
@[simp] theorem State.outPush_inq (s : State) (bs : List Byte) : (s.outPush bs).inq = s.inq := rfl
@[simp] theorem State.outPush_outq (s : State) (bs : List Byte) : (s.outPush bs).outq = s.outq ++ bs := rfl
@[simp] theorem State.outPush_turns (s : State) (bs : List Byte) : (s.outPush bs).turns = s.turns := rfl
@[simp] theorem State.outPush_seen (s : State) (bs : List Byte) : (s.outPush bs).seen = s.seen := rfl

/-! ## State.countUnit -/

@[simp] theorem State.countUnit_st (s : State) : (s.countUnit).st = s.st := rfl
@[simp] theorem State.countUnit_inLen (s : State) : (s.countUnit).inLen = s.inLen := rfl
@[simp] theorem State.countUnit_err (s : State) : (s.countUnit).err = s.err := rfl
@[simp] theorem State.countUnit_errCode (s : State) : (s.countUnit).errCode = s.errCode := rfl
@[simp] theorem State.countUnit_op (s : State) : (s.countUnit).op = s.op := rfl
@[simp] theorem State.countUnit_comp (s : State) : (s.countUnit).comp = s.comp := rfl
@[simp] theorem State.countUnit_inPos (s : State) : (s.countUnit).inPos = s.inPos := rfl
@[simp] theorem State.countUnit_outLen (s : State) : (s.countUnit).outLen = s.outLen := rfl
@[simp] theorem State.countUnit_unitCnt (s : State) : (s.countUnit).unitCnt = s.unitCnt + 1#32 := rfl
@[simp] theorem State.countUnit_errPos (s : State) : (s.countUnit).errPos = s.errPos := rfl
@[simp] theorem State.countUnit_inq (s : State) : (s.countUnit).inq = s.inq := rfl
@[simp] theorem State.countUnit_outq (s : State) : (s.countUnit).outq = s.outq := rfl
@[simp] theorem State.countUnit_turns (s : State) : (s.countUnit).turns = s.turns := rfl
@[simp] theorem State.countUnit_seen (s : State) : (s.countUnit).seen = s.seen := rfl

/-! ## State.unitStep -/

@[simp] theorem State.unitStep_st (s : State) (k : Nat) (out : List Byte) : (s.unitStep k out).st = s.st := rfl
@[simp] theorem State.unitStep_inLen (s : State) (k : Nat) (out : List Byte) : (s.unitStep k out).inLen = s.inLen := rfl
@[simp] theorem State.unitStep_err (s : State) (k : Nat) (out : List Byte) : (s.unitStep k out).err = s.err := rfl
@[simp] theorem State.unitStep_errCode (s : State) (k : Nat) (out : List Byte) : (s.unitStep k out).errCode = s.errCode := rfl
@[simp] theorem State.unitStep_op (s : State) (k : Nat) (out : List Byte) : (s.unitStep k out).op = s.op := rfl
@[simp] theorem State.unitStep_comp (s : State) (k : Nat) (out : List Byte) : (s.unitStep k out).comp = s.comp := rfl
@[simp] theorem State.unitStep_inPos (s : State) (k : Nat) (out : List Byte) : (s.unitStep k out).inPos = s.inPos + BitVec.ofNat 32 k := rfl
@[simp] theorem State.unitStep_outLen (s : State) (k : Nat) (out : List Byte) : (s.unitStep k out).outLen = s.outLen + BitVec.ofNat 32 out.length := rfl
@[simp] theorem State.unitStep_unitCnt (s : State) (k : Nat) (out : List Byte) : (s.unitStep k out).unitCnt = s.unitCnt + 1#32 := rfl
@[simp] theorem State.unitStep_errPos (s : State) (k : Nat) (out : List Byte) : (s.unitStep k out).errPos = s.errPos := rfl
@[simp] theorem State.unitStep_inq (s : State) (k : Nat) (out : List Byte) : (s.unitStep k out).inq = s.inq.drop k := rfl
@[simp] theorem State.unitStep_outq (s : State) (k : Nat) (out : List Byte) : (s.unitStep k out).outq = s.outq ++ out := rfl
@[simp] theorem State.unitStep_turns (s : State) (k : Nat) (out : List Byte) : (s.unitStep k out).turns = s.turns := rfl
@[simp] theorem State.unitStep_seen (s : State) (k : Nat) (out : List Byte) : (s.unitStep k out).seen = s.seen := rfl

/-! ## State.faultEntry -/

@[simp] theorem State.faultEntry_st (s : State) (K : ErrKind) : (s.faultEntry K).st = .done := rfl
@[simp] theorem State.faultEntry_inLen (s : State) (K : ErrKind) : (s.faultEntry K).inLen = s.inLen := rfl
@[simp] theorem State.faultEntry_err (s : State) (K : ErrKind) : (s.faultEntry K).err = true := rfl
@[simp] theorem State.faultEntry_errCode (s : State) (K : ErrKind) : (s.faultEntry K).errCode = errCodeOf K := rfl
@[simp] theorem State.faultEntry_op (s : State) (K : ErrKind) : (s.faultEntry K).op = s.op := rfl
@[simp] theorem State.faultEntry_comp (s : State) (K : ErrKind) : (s.faultEntry K).comp = s.comp := rfl
@[simp] theorem State.faultEntry_inPos (s : State) (K : ErrKind) : (s.faultEntry K).inPos = s.inPos + BitVec.ofNat 32 s.rem := rfl
@[simp] theorem State.faultEntry_outLen (s : State) (K : ErrKind) : (s.faultEntry K).outLen = s.outLen := rfl
@[simp] theorem State.faultEntry_unitCnt (s : State) (K : ErrKind) : (s.faultEntry K).unitCnt = s.unitCnt := rfl
@[simp] theorem State.faultEntry_errPos (s : State) (K : ErrKind) : (s.faultEntry K).errPos = s.inPos := rfl
@[simp] theorem State.faultEntry_inq (s : State) (K : ErrKind) : (s.faultEntry K).inq = s.inq.drop s.rem := rfl
@[simp] theorem State.faultEntry_outq (s : State) (K : ErrKind) : (s.faultEntry K).outq = s.outq := rfl
@[simp] theorem State.faultEntry_turns (s : State) (K : ErrKind) : (s.faultEntry K).turns = s.turns := rfl
@[simp] theorem State.faultEntry_seen (s : State) (K : ErrKind) : (s.faultEntry K).seen = s.seen := rfl

/-! ## State.complete -/

@[simp] theorem State.complete_st (s : State) : (s.complete).st = .done := rfl
@[simp] theorem State.complete_inLen (s : State) : (s.complete).inLen = s.inLen := rfl
@[simp] theorem State.complete_err (s : State) : (s.complete).err = s.err := rfl
@[simp] theorem State.complete_errCode (s : State) : (s.complete).errCode = s.errCode := rfl
@[simp] theorem State.complete_op (s : State) : (s.complete).op = s.op := rfl
@[simp] theorem State.complete_comp (s : State) : (s.complete).comp = s.comp := rfl
@[simp] theorem State.complete_inPos (s : State) : (s.complete).inPos = s.inPos := rfl
@[simp] theorem State.complete_outLen (s : State) : (s.complete).outLen = s.outLen := rfl
@[simp] theorem State.complete_unitCnt (s : State) : (s.complete).unitCnt = s.unitCnt := rfl
@[simp] theorem State.complete_errPos (s : State) : (s.complete).errPos = s.errPos := rfl
@[simp] theorem State.complete_inq (s : State) : (s.complete).inq = s.inq := rfl
@[simp] theorem State.complete_outq (s : State) : (s.complete).outq = s.outq := rfl
@[simp] theorem State.complete_turns (s : State) : (s.complete).turns = s.turns := rfl
@[simp] theorem State.complete_seen (s : State) : (s.complete).seen = s.seen := rfl

/-! ## State.clearCounters -/

@[simp] theorem State.clearCounters_st (s : State) : (s.clearCounters).st = s.st := rfl
@[simp] theorem State.clearCounters_inLen (s : State) : (s.clearCounters).inLen = s.inLen := rfl
@[simp] theorem State.clearCounters_err (s : State) : (s.clearCounters).err = s.err := rfl
@[simp] theorem State.clearCounters_errCode (s : State) : (s.clearCounters).errCode = s.errCode := rfl
@[simp] theorem State.clearCounters_op (s : State) : (s.clearCounters).op = s.op := rfl
@[simp] theorem State.clearCounters_comp (s : State) : (s.clearCounters).comp = s.comp := rfl
@[simp] theorem State.clearCounters_inPos (s : State) : (s.clearCounters).inPos = 0#32 := rfl
@[simp] theorem State.clearCounters_outLen (s : State) : (s.clearCounters).outLen = 0#32 := rfl
@[simp] theorem State.clearCounters_unitCnt (s : State) : (s.clearCounters).unitCnt = 0#32 := rfl
@[simp] theorem State.clearCounters_errPos (s : State) : (s.clearCounters).errPos = 0#32 := rfl
@[simp] theorem State.clearCounters_inq (s : State) : (s.clearCounters).inq = s.inq := rfl
@[simp] theorem State.clearCounters_outq (s : State) : (s.clearCounters).outq = s.outq := rfl
@[simp] theorem State.clearCounters_turns (s : State) : (s.clearCounters).turns = s.turns := rfl
@[simp] theorem State.clearCounters_seen (s : State) : (s.clearCounters).seen = s.seen := rfl

/-! ## State.startJob -/

@[simp] theorem State.startJob_st (s : State) (op : BitVec 3) (comp : CompressionType) : (s.startJob op comp).st = .busy := rfl
@[simp] theorem State.startJob_inLen (s : State) (op : BitVec 3) (comp : CompressionType) : (s.startJob op comp).inLen = s.inLen := rfl
@[simp] theorem State.startJob_err (s : State) (op : BitVec 3) (comp : CompressionType) : (s.startJob op comp).err = false := rfl
@[simp] theorem State.startJob_errCode (s : State) (op : BitVec 3) (comp : CompressionType) : (s.startJob op comp).errCode = 0#4 := rfl
@[simp] theorem State.startJob_op (s : State) (op : BitVec 3) (comp : CompressionType) : (s.startJob op comp).op = op := rfl
@[simp] theorem State.startJob_comp (s : State) (op : BitVec 3) (comp : CompressionType) : (s.startJob op comp).comp = comp := rfl
@[simp] theorem State.startJob_inPos (s : State) (op : BitVec 3) (comp : CompressionType) : (s.startJob op comp).inPos = 0#32 := rfl
@[simp] theorem State.startJob_outLen (s : State) (op : BitVec 3) (comp : CompressionType) : (s.startJob op comp).outLen = 0#32 := rfl
@[simp] theorem State.startJob_unitCnt (s : State) (op : BitVec 3) (comp : CompressionType) : (s.startJob op comp).unitCnt = 0#32 := rfl
@[simp] theorem State.startJob_errPos (s : State) (op : BitVec 3) (comp : CompressionType) : (s.startJob op comp).errPos = 0#32 := rfl
@[simp] theorem State.startJob_inq (s : State) (op : BitVec 3) (comp : CompressionType) : (s.startJob op comp).inq = s.inq := rfl
@[simp] theorem State.startJob_outq (s : State) (op : BitVec 3) (comp : CompressionType) : (s.startJob op comp).outq = s.outq := rfl
@[simp] theorem State.startJob_turns (s : State) (op : BitVec 3) (comp : CompressionType) : (s.startJob op comp).turns = s.turns := rfl
@[simp] theorem State.startJob_seen (s : State) (op : BitVec 3) (comp : CompressionType) : (s.startJob op comp).seen = s.seen := rfl

/-! ## State.clearStatus -/

@[simp] theorem State.clearStatus_st (s : State) : (s.clearStatus).st = .idle := rfl
@[simp] theorem State.clearStatus_inLen (s : State) : (s.clearStatus).inLen = s.inLen := rfl
@[simp] theorem State.clearStatus_err (s : State) : (s.clearStatus).err = false := rfl
@[simp] theorem State.clearStatus_errCode (s : State) : (s.clearStatus).errCode = 0#4 := rfl
@[simp] theorem State.clearStatus_op (s : State) : (s.clearStatus).op = 0#3 := rfl
@[simp] theorem State.clearStatus_comp (s : State) : (s.clearStatus).comp = .raw := rfl
@[simp] theorem State.clearStatus_inPos (s : State) : (s.clearStatus).inPos = 0#32 := rfl
@[simp] theorem State.clearStatus_outLen (s : State) : (s.clearStatus).outLen = 0#32 := rfl
@[simp] theorem State.clearStatus_unitCnt (s : State) : (s.clearStatus).unitCnt = 0#32 := rfl
@[simp] theorem State.clearStatus_errPos (s : State) : (s.clearStatus).errPos = 0#32 := rfl
@[simp] theorem State.clearStatus_inq (s : State) : (s.clearStatus).inq = s.inq := rfl
@[simp] theorem State.clearStatus_outq (s : State) : (s.clearStatus).outq = s.outq := rfl
@[simp] theorem State.clearStatus_turns (s : State) : (s.clearStatus).turns = s.turns := rfl
@[simp] theorem State.clearStatus_seen (s : State) : (s.clearStatus).seen = s.seen := rfl

/-! ## State.illegalCommand -/

@[simp] theorem State.illegalCommand_st (s : State) (w : Word) : (s.illegalCommand w).st = .done := rfl
@[simp] theorem State.illegalCommand_inLen (s : State) (w : Word) : (s.illegalCommand w).inLen = s.inLen := rfl
@[simp] theorem State.illegalCommand_err (s : State) (w : Word) : (s.illegalCommand w).err = true := rfl
@[simp] theorem State.illegalCommand_errCode (s : State) (w : Word) : (s.illegalCommand w).errCode = errCodeOf .cmd := rfl
@[simp] theorem State.illegalCommand_op (s : State) (w : Word) : (s.illegalCommand w).op = cmdOp w := rfl
@[simp] theorem State.illegalCommand_comp (s : State) (w : Word) : (s.illegalCommand w).comp = cmdComp w := rfl
@[simp] theorem State.illegalCommand_inPos (s : State) (w : Word) : (s.illegalCommand w).inPos = 0#32 := rfl
@[simp] theorem State.illegalCommand_outLen (s : State) (w : Word) : (s.illegalCommand w).outLen = 0#32 := rfl
@[simp] theorem State.illegalCommand_unitCnt (s : State) (w : Word) : (s.illegalCommand w).unitCnt = 0#32 := rfl
@[simp] theorem State.illegalCommand_errPos (s : State) (w : Word) : (s.illegalCommand w).errPos = 0#32 := rfl
@[simp] theorem State.illegalCommand_inq (s : State) (w : Word) : (s.illegalCommand w).inq = s.inq := rfl
@[simp] theorem State.illegalCommand_outq (s : State) (w : Word) : (s.illegalCommand w).outq = s.outq := rfl
@[simp] theorem State.illegalCommand_turns (s : State) (w : Word) : (s.illegalCommand w).turns = s.turns := rfl
@[simp] theorem State.illegalCommand_seen (s : State) (w : Word) : (s.illegalCommand w).seen = s.seen := rfl

/-! ## State.resetBlock -/

@[simp] theorem State.resetBlock_st (s : State) : (s.resetBlock).st = .idle := rfl
@[simp] theorem State.resetBlock_inLen (s : State) : (s.resetBlock).inLen = 0#32 := rfl
@[simp] theorem State.resetBlock_err (s : State) : (s.resetBlock).err = false := rfl
@[simp] theorem State.resetBlock_errCode (s : State) : (s.resetBlock).errCode = 0#4 := rfl
@[simp] theorem State.resetBlock_op (s : State) : (s.resetBlock).op = 0#3 := rfl
@[simp] theorem State.resetBlock_comp (s : State) : (s.resetBlock).comp = .raw := rfl
@[simp] theorem State.resetBlock_inPos (s : State) : (s.resetBlock).inPos = 0#32 := rfl
@[simp] theorem State.resetBlock_outLen (s : State) : (s.resetBlock).outLen = 0#32 := rfl
@[simp] theorem State.resetBlock_unitCnt (s : State) : (s.resetBlock).unitCnt = 0#32 := rfl
@[simp] theorem State.resetBlock_errPos (s : State) : (s.resetBlock).errPos = 0#32 := rfl
@[simp] theorem State.resetBlock_inq (s : State) : (s.resetBlock).inq = [] := rfl
@[simp] theorem State.resetBlock_outq (s : State) : (s.resetBlock).outq = [] := rfl
@[simp] theorem State.resetBlock_turns (s : State) : (s.resetBlock).turns = s.turns := rfl
@[simp] theorem State.resetBlock_seen (s : State) : (s.resetBlock).seen = s.seen := rfl

/-! ## State.takeTurn -/

@[simp] theorem State.takeTurn_st (s : State) : (s.takeTurn).st = s.st := rfl
@[simp] theorem State.takeTurn_inLen (s : State) : (s.takeTurn).inLen = s.inLen := rfl
@[simp] theorem State.takeTurn_err (s : State) : (s.takeTurn).err = s.err := rfl
@[simp] theorem State.takeTurn_errCode (s : State) : (s.takeTurn).errCode = s.errCode := rfl
@[simp] theorem State.takeTurn_op (s : State) : (s.takeTurn).op = s.op := rfl
@[simp] theorem State.takeTurn_comp (s : State) : (s.takeTurn).comp = s.comp := rfl
@[simp] theorem State.takeTurn_inPos (s : State) : (s.takeTurn).inPos = s.inPos := rfl
@[simp] theorem State.takeTurn_outLen (s : State) : (s.takeTurn).outLen = s.outLen := rfl
@[simp] theorem State.takeTurn_unitCnt (s : State) : (s.takeTurn).unitCnt = s.unitCnt := rfl
@[simp] theorem State.takeTurn_errPos (s : State) : (s.takeTurn).errPos = s.errPos := rfl
@[simp] theorem State.takeTurn_inq (s : State) : (s.takeTurn).inq = s.inq := rfl
@[simp] theorem State.takeTurn_outq (s : State) : (s.takeTurn).outq = s.outq := rfl
@[simp] theorem State.takeTurn_turns (s : State) : (s.takeTurn).turns = s.turns.tail := rfl
@[simp] theorem State.takeTurn_seen (s : State) : (s.takeTurn).seen = s.seen := rfl

end Sys2Proof.Machine
end

