-- ==== Sys2Proof/Laws/Ops.lean ====
section
/-! SUPPORT. What the shared operations can do, said once: what the queued input is bounded by, how the cursor moves, and when
each shared step answers which state. -/

namespace Sys2Proof.Machine

/-! ## The queued input -/

theorem ready_le_inAvail (s : State) : s.ready ≤ s.inAvail := Nat.min_le_left _ _

theorem ready_le_rem (s : State) : s.ready ≤ s.rem := Nat.min_le_right _ _

@[simp] theorem window_length (s : State) : s.window.length = s.ready := by
  have := ready_le_inAvail s
  simp only [State.window, State.inPeek, List.length_take, State.inAvail] at *
  omega

theorem rem_lt (s : State) : s.rem < 2 ^ 32 := by
  have := s.inLen.isLt
  simp only [State.rem]
  omega

/-- `InPop(k)` of at most the remaining input moves the cursor by exactly `k` (R23: it never wraps). -/
theorem inPos_add_toNat (s : State) (k : Nat) (h : k ≤ s.rem) :
    (s.inPos + BitVec.ofNat 32 k).toNat = s.inPos.toNat + k := by
  have h1 := s.inLen.isLt
  have h2 := s.inPos.isLt
  simp only [State.rem] at h
  rw [BitVec.toNat_add, BitVec.toNat_ofNat]
  omega

/-- The drain leaves the cursor at `IN_LEN` (R157). -/
theorem inPos_drain (s : State) (h : s.inPos.toNat ≤ s.inLen.toNat) :
    s.inPos + BitVec.ofNat 32 s.rem = s.inLen := by
  apply BitVec.eq_of_toNat_eq
  rw [inPos_add_toNat s s.rem (Nat.le_refl _)]
  simp only [State.rem]
  omega

/-- While input remains the cursor is below `IN_LEN`. -/
theorem rem_pos_of_ne (s : State) (h : s.inPos.toNat ≤ s.inLen.toNat) (hne : s.inPos ≠ s.inLen) : 1 ≤ s.rem := by
  have : s.inPos.toNat ≠ s.inLen.toNat := fun he => hne (BitVec.eq_of_toNat_eq he)
  simp only [State.rem]
  omega

/-! ## Shared steps -/

theorem acceptCommand_busy (s a : State) (h : s.st = .busy) : acceptCommand s a = .next s := by
  simp [acceptCommand, h]

theorem acceptCommand_free (s a : State) (h : s.st ≠ .busy) : acceptCommand s a = .next a := by
  simp [acceptCommand, h]

/-- A `CMD` write is ignored or accepted (R130). -/
theorem acceptCommand_cases {s a t : State} (h : acceptCommand s a = .next t) :
    (s.st = .busy ∧ t = s) ∨ (s.st ≠ .busy ∧ t = a) := by
  by_cases hb : s.st = .busy
  · rw [acceptCommand_busy s a hb] at h
    cases h
    exact .inl ⟨hb, rfl⟩
  · rw [acceptCommand_free s a hb] at h
    cases h
    exact .inr ⟨hb, rfl⟩

/-- A fault step holds or enters the fault (R139, R144). -/
theorem faultStep_cases {s t : State} {K : ErrKind} (h : faultStep s K = .next t) :
    (s.ready ≠ s.rem ∧ t = s) ∨ (s.ready = s.rem ∧ t = s.faultEntry K) := by
  by_cases hr : s.ready = s.rem
  · simp only [faultStep, if_pos hr, Host.Outcome.next.injEq] at h
    exact .inr ⟨hr, h.symm⟩
  · simp only [faultStep, if_neg hr, Host.Outcome.next.injEq] at h
    exact .inl ⟨hr, h.symm⟩

theorem faultStep_next (s : State) (K : ErrKind) : ∃ t, faultStep s K = .next t := by
  by_cases hr : s.ready = s.rem
  · exact ⟨_, if_pos hr⟩
  · exact ⟨_, if_neg hr⟩

/-- What the engine's step on a unit of its input can answer (R138, R139, R143, R144). -/
theorem decodeUnit_cases {s t : State} {op : BitVec 3} {k : Nat} {r : Except ErrKind (List Byte)}
    (h : decodeUnit s op k r = .next t) :
    t = s ∨ (s.st = .busy ∧ s.op = op ∧ k ≤ s.ready ∧
      ((∃ out, r = .ok out ∧ t = s.unitStep k out) ∨
        (∃ K, r = .error K ∧ s.ready = s.rem ∧ t = s.faultEntry K))) := by
  by_cases hc : s.st = .busy ∧ s.op = op ∧ k ≤ s.ready
  · simp only [decodeUnit, if_pos hc] at h
    cases r with
    | ok out =>
      simp only [Host.Outcome.next.injEq] at h
      exact .inr ⟨hc.1, hc.2.1, hc.2.2, .inl ⟨out, rfl, h.symm⟩⟩
    | error K =>
      rcases faultStep_cases h with ⟨-, rfl⟩ | ⟨hr, rfl⟩
      · exact .inl rfl
      · exact .inr ⟨hc.1, hc.2.1, hc.2.2, .inr ⟨K, rfl, hr, rfl⟩⟩
  · simp only [decodeUnit, if_neg hc, Host.Outcome.next.injEq] at h
    exact .inl h.symm

theorem decodeUnit_next (s : State) (op : BitVec 3) (k : Nat) (r : Except ErrKind (List Byte)) :
    ∃ t, decodeUnit s op k r = .next t := by
  by_cases hc : s.st = .busy ∧ s.op = op ∧ k ≤ s.ready
  · simp only [decodeUnit, if_pos hc]
    cases r with
    | ok out => exact ⟨_, rfl⟩
    | error K => exact faultStep_next s K
  · exact ⟨s, if_neg hc⟩

/-- A unit of the running job that is whole in the queued input and stands for `out` is performed. -/
theorem decodeUnit_ok {s : State} {op : BitVec 3} {k : Nat} (out : List Byte) (hb : s.st = .busy) (ho : s.op = op)
    (hk : k ≤ s.ready) : decodeUnit s op k (.ok out) = .next (s.unitStep k out) := by
  simp only [decodeUnit, if_pos (And.intro hb (And.intro ho hk))]

/-- A unit of the running job that is in error gives the fault step. -/
theorem decodeUnit_error {s : State} {op : BitVec 3} {k : Nat} (K : ErrKind) (hb : s.st = .busy) (ho : s.op = op)
    (hk : k ≤ s.ready) : decodeUnit s op k (.error K) = faultStep s K := by
  simp only [decodeUnit, if_pos (And.intro hb (And.intro ho hk))]

end Sys2Proof.Machine
end

