-- ==== Sys2Proof/Laws/Engine.lean ====
section
/-! SUPPORT. What an instruction, an engine step, a host action and a step of the machine can answer: one inversion lemma
each, from which invariants follow without unfolding a step. -/

namespace Sys2Proof.Machine

/-! ## The arms of `exec` over the shared operations -/

theorem exec_g (payload : List Byte) (s : State) :
    exec (.g payload) s = decodeUnit s 2#3 (3 + payload.length) (payloadLine s.comp payload) := rfl

theorem exec_z (s : State) : exec .z s = decodeUnit s 2#3 1 (.ok zeroLine) := rfl

theorem exec_frameReservedTag (tag : Byte) (s : State) :
    exec (.frameReservedTag tag) s = decodeUnit s 2#3 1 (.error .tag) := rfl

theorem exec_lit (data : List Byte) (s : State) :
    exec (.lit data) s = decodeUnit s 4#3 (data.length + 1) (.ok data) := rfl

theorem exec_rep (n : Nat) (b : Byte) (s : State) :
    exec (.rep n b) s = decodeUnit s 4#3 2 (.ok (List.replicate n b)) := rfl

theorem exec_runReserved (s : State) : exec .runReserved s = decodeUnit s 4#3 1 (.error .rleRsvd) := rfl

/-! ## Inversion -/

/-- What `exec` can answer: nothing changes, a command is accepted, a unit is performed, or a fault is entered. -/
inductive ExecMove (s : State) : State → Prop where
  | stay : ExecMove s s
  | clear (h : s.st ≠ .busy) : ExecMove s s.clearStatus
  | start (h : s.st ≠ .busy) (op : BitVec 3) (comp : CompressionType) (hop : 1 ≤ op.toNat ∧ op.toNat ≤ 4) :
      ExecMove s (s.startJob op comp)
  | illegal (h : s.st ≠ .busy) (w : Word) : ExecMove s (s.illegalCommand w)
  | unit (h : s.st = .busy) (k : Nat) (out : List Byte) (hk : 1 ≤ k) (hr : k ≤ s.ready) :
      ExecMove s (s.unitStep k out)
  | fault (h : s.st = .busy) (K : ErrKind) (hr : s.ready = s.rem) (hpos : 1 ≤ s.rem) : ExecMove s (s.faultEntry K)

theorem decodeUnit_move {s t : State} {op : BitVec 3} {k : Nat} {r : Except ErrKind (List Byte)} (hk : 1 ≤ k)
    (h : decodeUnit s op k r = .next t) : ExecMove s t := by
  rcases decodeUnit_cases h with rfl | ⟨hb, -, hr, ⟨out, -, rfl⟩ | ⟨K, -, he, rfl⟩⟩
  · exact .stay
  · exact .unit hb k out hk hr
  · exact .fault hb K he (by omega)

theorem acceptCommand_move {s a t : State} (ha : s.st ≠ .busy → ExecMove s a) (h : acceptCommand s a = .next t) :
    ExecMove s t := by
  rcases acceptCommand_cases h with ⟨-, rfl⟩ | ⟨hf, rfl⟩
  · exact .stay
  · exact ha hf

/-- Every instruction makes one of the moves above. -/
theorem exec_move {i : Instr} {s t : State} (h : exec i s = .next t) : ExecMove s t := by
  cases i with
  | clr => exact acceptCommand_move .clear h
  | encXfer comp => exact acceptCommand_move (fun hf => .start hf 1#3 comp (by decide)) h
  | decXfer comp => exact acceptCommand_move (fun hf => .start hf 2#3 comp (by decide)) h
  | rleEnc => exact acceptCommand_move (fun hf => .start hf 3#3 .raw (by decide)) h
  | rleDec => exact acceptCommand_move (fun hf => .start hf 4#3 .raw (by decide)) h
  | cmdIllegal w => exact acceptCommand_move (fun hf => .illegal hf w) h
  | g payload => rw [exec_g] at h; exact decodeUnit_move (by omega) h
  | z => rw [exec_z] at h; exact decodeUnit_move (by omega) h
  | frameReservedTag tag => rw [exec_frameReservedTag] at h; exact decodeUnit_move (by omega) h
  | lit data => rw [exec_lit] at h; exact decodeUnit_move (by omega) h
  | rep n b => rw [exec_rep] at h; exact decodeUnit_move (by omega) h
  | runReserved => rw [exec_runReserved] at h; exact decodeUnit_move (by omega) h

theorem acceptCommand_next (s a : State) : ∃ t, acceptCommand s a = .next t := by
  by_cases hb : s.st = .busy
  · exact ⟨_, acceptCommand_busy s a hb⟩
  · exact ⟨_, acceptCommand_free s a hb⟩

/-- No instruction stops the machine. -/
theorem exec_next (i : Instr) (s : State) : ∃ t, exec i s = .next t := by
  cases i with
  | clr => exact acceptCommand_next _ _
  | encXfer comp => exact acceptCommand_next _ _
  | decXfer comp => exact acceptCommand_next _ _
  | rleEnc => exact acceptCommand_next _ _
  | rleDec => exact acceptCommand_next _ _
  | cmdIllegal w => exact acceptCommand_next _ _
  | g payload => rw [exec_g]; exact decodeUnit_next _ _ _ _
  | z => rw [exec_z]; exact decodeUnit_next _ _ _ _
  | frameReservedTag tag => rw [exec_frameReservedTag]; exact decodeUnit_next _ _ _ _
  | lit data => rw [exec_lit]; exact decodeUnit_next _ _ _ _
  | rep n b => rw [exec_rep]; exact decodeUnit_next _ _ _ _
  | runReserved => rw [exec_runReserved]; exact decodeUnit_next _ _ _ _

/-- What a turn of the engine can answer (R134): nothing changes, the completion step, a unit step, or a fault step. -/
inductive EngineMove (s : State) : State → Prop where
  | stay : EngineMove s s
  | complete (h : s.st = .busy) (hp : s.inPos = s.inLen) : EngineMove s s.complete
  | unit (h : s.st = .busy) (hp : s.inPos ≠ s.inLen) (k : Nat) (out : List Byte) (hk : 1 ≤ k) (hr : k ≤ s.ready) :
      EngineMove s (s.unitStep k out)
  | fault (h : s.st = .busy) (hp : s.inPos ≠ s.inLen) (K : ErrKind) (hr : s.ready = s.rem) (hpos : 1 ≤ s.rem) :
      EngineMove s (s.faultEntry K)

theorem EngineMove.ofExec {s t : State} (hb : s.st = .busy) (hp : s.inPos ≠ s.inLen) (h : ExecMove s t) :
    EngineMove s t := by
  cases h with
  | stay => exact .stay
  | clear h => exact absurd hb h
  | start h op comp hop => exact absurd hb h
  | illegal h w => exact absurd hb h
  | unit h k out hk hr => exact .unit h hp k out hk hr
  | fault h K hr hpos => exact .fault h hp K hr hpos

theorem EngineMove.ofFaultStep {s t : State} {K : ErrKind} (hb : s.st = .busy) (hp : s.inPos ≠ s.inLen)
    (hpos : 1 ≤ s.rem) (h : faultStep s K = .next t) : EngineMove s t := by
  rcases faultStep_cases h with ⟨-, rfl⟩ | ⟨hr, rfl⟩
  · exact .stay
  · exact .fault hb hp K hr hpos

theorem encXferUnit_move {s t : State} (hb : s.st = .busy) (hp : s.inPos ≠ s.inLen) (hpos : 1 ≤ s.rem)
    (h : encXferUnit s = .next t) : EngineMove s t := by
  simp only [encXferUnit] at h
  split at h
  · cases h
    refine .unit hb hp _ _ (by omega) ?_
    simp only [State.ready]
    omega
  · cases h
    exact .stay

theorem rleEncUnit_move {s t : State} (hb : s.st = .busy) (hp : s.inPos ≠ s.inLen) (hpos : 1 ≤ s.rem)
    (h : rleEncUnit s = .next t) : EngineMove s t := by
  simp only [rleEncUnit] at h
  split at h
  next hw =>
    cases h
    have hlen : (s.inPeek (min s.rem 129)).length = min s.rem 129 := by
      simp only [State.inPeek, List.length_take, State.inAvail] at hw ⊢
      omega
    obtain ⟨b, xs, hq⟩ : ∃ b xs, s.inPeek (min s.rem 129) = b :: xs := by
      cases hq : s.inPeek (min s.rem 129) with
      | nil => rw [hq] at hlen; simp only [List.length_nil] at hlen; omega
      | cons b xs => exact ⟨b, xs, rfl⟩
    have hc := firstRun_consumes b xs
    rw [← hq, hlen] at hc
    refine .unit hb hp _ _ hc.1 ?_
    simp only [State.ready]
    omega
  next =>
    cases h
    exact .stay

/-- A turn of the engine makes one of the moves above. -/
theorem engineStep_move {s t : State} (h : engineStep s = .next t) : EngineMove s t := by
  by_cases hb : s.st = .busy
  · by_cases hp : s.inPos = s.inLen
    · simp only [engineStep, if_pos hb, if_pos hp, Host.Outcome.next.injEq] at h
      subst h
      exact .complete hb hp
    · by_cases hz : s.rem = 0
      · simp only [engineStep, if_pos hb, if_neg hp, if_pos hz, Host.Outcome.next.injEq] at h
        subst h
        exact .stay
      · have hpos : 1 ≤ s.rem := by omega
        simp only [engineStep, if_pos hb, if_neg hp, if_neg hz] at h
        split at h
        · exact encXferUnit_move hb hp hpos h
        · split at h
          · simp only [decXferStep] at h
            split at h
            · exact .ofExec hb hp (exec_move h)
            · exact .ofFaultStep hb hp hpos h
          · split at h
            · exact rleEncUnit_move hb hp hpos h
            · split at h
              · simp only [rleDecStep] at h
                split at h
                · exact .ofExec hb hp (exec_move h)
                · exact .ofFaultStep hb hp hpos h
              · cases h
                exact .stay
  · simp only [engineStep, if_neg hb, Host.Outcome.next.injEq] at h
    subst h
    exact .stay

/-- A turn of the engine never stops the machine. -/
theorem engineStep_next (s : State) : ∃ t, engineStep s = .next t := by
  simp only [engineStep, encXferUnit, decXferStep, rleEncUnit, rleDecStep]
  split
  · split
    · exact ⟨_, rfl⟩
    · split
      · exact ⟨_, rfl⟩
      · split
        · split <;> exact ⟨_, rfl⟩
        · split
          · split
            · exact exec_next _ _
            · exact faultStep_next _ _
          · split
            · split <;> exact ⟨_, rfl⟩
            · split
              · split
                · exact exec_next _ _
                · exact faultStep_next _ _
              · exact ⟨_, rfl⟩
  · exact ⟨_, rfl⟩

/-- What an action of the host can answer (R185). -/
inductive HostMove (s : State) : State → Prop where
  | command (t : State) (h : ExecMove s t) : HostMove s t
  | told (x : Seen) : HostMove s { s with seen := s.seen ++ [x] }
  | length (h : s.st ≠ .busy) (v : Word) : HostMove s { s with inLen := v }
  | push (b : Byte) : HostMove s { s with inq := s.inq ++ [b] }
  | pop (b : Byte) (rest : List Byte) (h : s.outq = b :: rest) :
      HostMove s { s with outq := rest, seen := s.seen ++ [.byte b] }
  | reset : HostMove s s.resetBlock

/-- Every action of the host makes one of the moves above. -/
theorem hostStep_move {a : HostAction} {s t : State} (h : hostStep a s = .next t) : HostMove s t := by
  cases a with
  | readReg width off =>
    simp only [hostStep, hostRead] at h
    split at h
    · cases h
    · cases h
      exact .told _
  | writeReg width off val =>
    simp only [hostStep, hostWrite] at h
    split at h
    · cases h
    · simp only [writeWord] at h
      split at h
      · exact .command t (exec_move h)
      · split at h
        · split at h
          next => cases h; exact .command _ .stay
          next hb => cases h; exact .length hb val
        · cases h
          exact .command _ .stay
  | inPush b =>
    cases h
    exact .push b
  | outPop =>
    simp only [hostStep, hostPop] at h
    split at h
    next => cases h; exact .command _ .stay
    next b rest hq => cases h; exact .pop b rest hq
  | rst =>
    cases h
    exact .reset

/-- A step of the machine is a turn of the engine or an action of the host (R20). -/
theorem step_cases {s t : State} (h : step s = .next t) :
    (s.nextTurn = .engine ∧ EngineMove s.takeTurn t) ∨ (∃ a, s.nextTurn = .host a ∧ HostMove s.takeTurn t) := by
  simp only [step] at h
  cases hn : s.nextTurn with
  | engine =>
    rw [hn] at h
    exact .inl ⟨rfl, engineStep_move h⟩
  | host a =>
    rw [hn] at h
    exact .inr ⟨a, rfl, hostStep_move h⟩

end Sys2Proof.Machine
end

