-- ==== Sys2Proof/Laws/Flags.lean ====
section
/-! SUPPORT. The bits of a word made of placed fields, and of `STATUS` (R28), each in one lemma. -/

namespace Sys2Proof

/-- A placed field has its bits from `lo` on and zeros elsewhere. -/
theorem placeField_getLsbD {n : Nat} (v : BitVec n) (lo i : Nat) :
    (placeField v lo).getLsbD i = (decide (i < 32) && decide (lo ≤ i) && v.getLsbD (i - lo)) := by
  simp only [placeField, BitVec.getLsbD_shiftLeft, BitVec.getLsbD_setWidth]
  by_cases h1 : i < 32
  · by_cases h2 : lo ≤ i
    · have : i - lo < 32 := by omega
      simp [h1, h2, this]
    · simp [h1, h2]
  · simp [h1]

theorem compBit_getLsbD (c : CompressionType) (i : Nat) :
    (compBit c).getLsbD i = (decide (i = 0) && decide (c = .rle)) := by
  cases c <;> simp [compBit]

/-- A one-bit field placed at `lo` is bit `lo`. -/
theorem placedBit (lo i : Nat) (b : Bool) :
    (decide (lo ≤ i) && (decide (i - lo = 0) && b)) = (decide (i = lo) && b) := by
  by_cases h : i = lo
  · simp [h]
  · by_cases h1 : lo ≤ i
    · have : i - lo ≠ 0 := by omega
      simp [h, this]
    · simp [h, h1]

end Sys2Proof

namespace Sys2Proof.Machine

/-- Every bit of `STATUS` (R28). -/
theorem status_getLsbD (s : State) (i : Nat) :
    s.status.getLsbD i =
      (decide (i < 32) &&
        ((decide (i = 0) && s.busy) || (decide (i = 1) && s.done) || (decide (i = 2) && s.err) ||
          (decide (8 ≤ i) && s.errCode.getLsbD (i - 8)) || (decide (16 ≤ i) && s.op.getLsbD (i - 16)) ||
          (decide (i = 24) && decide (s.comp = .rle)))) := by
  have h1 := placedBit 1 i s.done
  have h2 := placedBit 2 i s.err
  have h3 := placedBit 24 i (decide (s.comp = .rle))
  simp only [State.status, BitVec.getLsbD_or, placeField_getLsbD, compBit_getLsbD, BitVec.getLsbD_ofBool]
  by_cases h : i < 32
  · simp [h, h1, h2, h3]
  · simp [h]

end Sys2Proof.Machine
end

