-- ==== Sys2Proof/Laws/PerInstr.lean ====
section
/-! SUPPORT. Facts of the encoding, one lemma per constructor of `Instr`: every encoding tells its own length (R70, R79), and
the reserved first bytes tell none. -/

namespace Sys2Proof

/-- The length in bytes of an instruction (R70): 4 for a command word, 1 or `3 + len` for a frame, `L + 2` or 2 for a run
record; a reserved first byte begins nothing that has a length (R79). -/
def unitLength : Instr → Option Nat
  | .clr => some 4
  | .encXfer _ => some 4
  | .decXfer _ => some 4
  | .rleEnc => some 4
  | .rleDec => some 4
  | .cmdIllegal _ => some 4
  | .g payload => some (3 + payload.length)
  | .z => some 1
  | .frameReservedTag _ => none
  | .lit data => some (data.length + 1)
  | .rep _ _ => some 2
  | .runReserved => none

/-- `le16` and `un16` are inverse on 16-bit lengths (R9). -/
theorem un16_le16 (n : Nat) (h : n ≤ 65535) :
    un16 (BitVec.ofNat 8 (n % 256)) (BitVec.ofNat 8 (n / 256)) = n := by
  simp only [un16, BitVec.toNat_ofNat]
  omega

/-- The control byte of a literal run (R72). -/
theorem litControl_toNat (n : Nat) (h : n ≤ 128) : (BitVec.ofNat 8 (n - 1)).toNat = n - 1 := by
  simp only [BitVec.toNat_ofNat]
  omega

/-- The control byte of a repeat run (R73). -/
theorem repControl_toNat (n : Nat) (h : 2 ≤ n) : (BitVec.ofNat 8 (257 - n)).toNat = 257 - n := by
  simp only [BitVec.toNat_ofNat]
  omega

end Sys2Proof

namespace Sys2Proof.Laws.ToldLength

/-- The encoding of a well-formed instruction tells its length as R79 says. -/
def Statement (i : Instr) : Prop := wellFormed i = true → toldLength (encode i) = unitLength i

theorem clr : Statement .clr := fun _ => rfl

theorem encXfer (comp : CompressionType) : Statement (.encXfer comp) := fun _ => rfl

theorem decXfer (comp : CompressionType) : Statement (.decXfer comp) := fun _ => rfl

theorem rleEnc : Statement .rleEnc := fun _ => rfl

theorem rleDec : Statement .rleDec := fun _ => rfl

theorem cmdIllegal (w : Word) : Statement (.cmdIllegal w) := fun _ => rfl

theorem g (payload : List Byte) : Statement (.g payload) := by
  intro h
  have hlen : payload.length ≤ 65535 := by simpa [wellFormed] using h
  simp [toldLength, encode, frameLength, le16, unitLength, un16_le16 _ hlen]

theorem z : Statement .z := fun _ => rfl

theorem frameReservedTag (tag : Byte) : Statement (.frameReservedTag tag) := by
  intro h
  have ht : tag ≠ 0x47#8 ∧ tag ≠ 0x5A#8 := by simpa [wellFormed] using h
  simp [toldLength, encode, frameLength, unitLength, ht.1, ht.2]

theorem lit (data : List Byte) : Statement (.lit data) := by
  intro h
  have hlen : 1 ≤ data.length ∧ data.length ≤ 128 := by
    simpa only [wellFormed, Bool.and_eq_true, decide_eq_true_eq] using h
  have hc : (BitVec.ofNat 8 (data.length - 1)).toNat = data.length - 1 := litControl_toNat _ hlen.2
  have hle : data.length - 1 ≤ 127 := by omega
  have hsum : data.length - 1 + 2 = data.length + 1 := by omega
  simp only [toldLength, encode, runLength, unitLength, hc, hle, if_true, hsum]

theorem rep (n : Nat) (b : Byte) : Statement (.rep n b) := by
  intro h
  have hn : 2 ≤ n ∧ n ≤ 128 := by
    simpa only [wellFormed, Bool.and_eq_true, decide_eq_true_eq] using h
  have hc : (BitVec.ofNat 8 (257 - n)).toNat = 257 - n := repControl_toNat _ hn.1
  have hgt : ¬ (257 - n ≤ 127) := by omega
  have hne : BitVec.ofNat 8 (257 - n) ≠ 0x80#8 := by
    intro he
    rw [he] at hc
    simp at hc
    omega
  simp only [toldLength, encode, runLength, unitLength, hc, hgt, hne, if_false]

theorem runReserved : Statement .runReserved := fun _ => rfl

end Sys2Proof.Laws.ToldLength
end

