-- ==== Sys2Proof/Tests/Slice0.lean ====
section
/-! SUPPORT. Tests of the model. Expected values are the spec's: its encodings written out, its examples and the vectors of
95_test_vectors.md (named E, RD, F, X, K there). The theorems named `test_witness_` show, for each statement with hypotheses, a
concrete case that meets them all. -/

namespace Sys2Proof.Tests

open Sys2Proof Sys2Proof.Machine

/-! ## Small states -/

/-- The next state of an outcome, if it is one. -/
def nextOf : StepOutcome → Option State
  | .next s => some s
  | .fault _ => none
  | .refused _ => none

/-- A job just started on `len` bytes, with `input` queued. -/
def job (op : BitVec 3) (comp : CompressionType) (len : Word) (input : List Byte) : State :=
  { State.reset with st := .busy, op := op, comp := comp, inLen := len, inq := input }

/-- A job whose whole input is queued. -/
def fullJob (op : BitVec 3) (comp : CompressionType) (input : List Byte) : State :=
  job op comp (BitVec.ofNat 32 input.length) input

/-- The state after a faulted job, the next length already written. -/
def faulted : State :=
  { State.reset with
    st := .done, inLen := 7#32, err := true, errCode := 5#4, op := 4#3, inPos := 3#32, outLen := 1#32, unitCnt := 1#32,
    errPos := 2#32, inq := [0x11#8], outq := [0xAA#8] }

/-- The state with one turn to come. -/
def withTurn (s : State) (t : Turn) : State := { s with turns := [t] }

/-! ## Well-formedness refuses -/

theorem test_wellFormed_cmdIllegal : wellFormed (.cmdIllegal 0x101#32) = false ∧ wellFormed (.cmdIllegal 0x100#32) = true := by
  decide

theorem test_wellFormed_g : wellFormed (.g (List.replicate 65536 0#8)) = false := by
  simp only [wellFormed, List.length_replicate]
  decide

theorem test_wellFormed_frameReservedTag :
    wellFormed (.frameReservedTag 0x47#8) = false ∧ wellFormed (.frameReservedTag 0x5A#8) = false := by decide

theorem test_wellFormed_lit : wellFormed (.lit []) = false ∧ wellFormed (.lit (List.replicate 129 0#8)) = false := by
  refine ⟨by decide, ?_⟩
  simp only [wellFormed, List.length_replicate]
  decide

theorem test_wellFormed_rep : wellFormed (.rep 1 0#8) = false ∧ wellFormed (.rep 129 0#8) = false := by decide

/-! ## Words written out from 30_encoding.md -/

/-- R71: OP 000. -/
theorem test_decode_clr : decodeCmd 0b00000000000000000000000000000000#32 = .clr := by decide

/-- R71: OP 001, COMP bit 8. -/
theorem test_decode_encXfer :
    decodeCmd 0b00000000000000000000000000000001#32 = .encXfer .raw ∧
    decodeCmd 0b00000000000000000000000100000001#32 = .encXfer .rle := by decide

/-- R71: OP 010, COMP bit 8. -/
theorem test_decode_decXfer :
    decodeCmd 0b00000000000000000000000000000010#32 = .decXfer .raw ∧
    decodeCmd 0b00000000000000000000000100000010#32 = .decXfer .rle := by decide

/-- R71: OP 011. -/
theorem test_decode_rleEnc : decodeCmd 0b00000000000000000000000000000011#32 = .rleEnc := by decide

/-- R71: OP 100. -/
theorem test_decode_rleDec : decodeCmd 0b00000000000000000000000000000100#32 = .rleDec := by decide

/-- R71: OP 101; COMP with OP 011; reserved bit 3; reserved bit 31 (K8, K11, K13, K15). -/
theorem test_decode_cmdIllegal :
    decodeCmd 0x00000005#32 = .cmdIllegal 0x00000005#32 ∧ decodeCmd 0x00000103#32 = .cmdIllegal 0x00000103#32 ∧
    decodeCmd 0x00000009#32 = .cmdIllegal 0x00000009#32 ∧ decodeCmd 0x80000002#32 = .cmdIllegal 0x80000002#32 := by decide

/-- R75: tag, low byte, high byte, payload; one byte follows the frame. -/
theorem test_decode_g :
    decodeFrame [0b01000111#8, 0x03#8, 0x00#8, 0x81#8, 0x41#8, 0x80#8, 0x5A#8] =
      .ok (.g [0x81#8, 0x41#8, 0x80#8], [0x5A#8]) := by decide

/-- R75: the second length byte is the high one, so 00 01 asks for 256 bytes (X13). -/
theorem test_decode_g_length_order :
    decodeFrame [0x47#8, 0x00#8, 0x01#8, 0x5A#8] = .error .payloadCut ∧
    decodeFrame [0x47#8, 0x02#8] = .error .lengthCut := by decide

/-- R76. -/
theorem test_decode_z : decodeFrame [0b01011010#8, 0x47#8] = .ok (.z, [0x47#8]) := by decide

/-- R77: lower-case g and z are unrecognized. -/
theorem test_decode_frameReservedTag :
    decodeFrame [0x67#8] = .ok (.frameReservedTag 0x67#8, []) ∧
    decodeFrame [0x7A#8, 0x01#8] = .ok (.frameReservedTag 0x7A#8, [0x01#8]) := by decide

/-- R72: `L = 0` copies one byte, the longest literal is 128 bytes. -/
theorem test_decode_lit :
    decodeRun [0b00000000#8, 0x80#8, 0x80#8] = .ok (.lit [0x80#8], [0x80#8]) ∧
    decodeRun (0b01111111#8 :: List.replicate 128 0x33#8) = .ok (.lit (List.replicate 128 0x33#8), []) := by
  refine ⟨by decide, ?_⟩
  simp [decodeRun]

/-- R73's selected values: 0xFF is 2 copies, 0xF1 is 16, 0x81 is 128. -/
theorem test_decode_rep :
    decodeRun [0b11111111#8, 0x80#8] = .ok (.rep 2 0x80#8, []) ∧
    decodeRun [0b11110001#8, 0x00#8] = .ok (.rep 16 0x00#8, []) ∧
    decodeRun [0b10000001#8, 0x07#8] = .ok (.rep 128 0x07#8, []) := by decide

/-- R74, even as the last byte (R153). -/
theorem test_decode_runReserved :
    decodeRun [0b10000000#8] = .ok (.runReserved, []) ∧
    decodeRun [0b10000000#8, 0x01#8] = .ok (.runReserved, [0x01#8]) := by decide

/-- Words of R71, R73, R75 from the encoder. -/
theorem test_encode_words :
    encode (.encXfer .rle) = .cmd 0x00000101#32 ∧ encode (.decXfer .raw) = .cmd 0x00000002#32 ∧
    encode (.rep 64 0x2A#8) = .run [0xC1#8, 0x2A#8] ∧
    encode (.lit [0xDE#8, 0xAD#8]) = .run [0x01#8, 0xDE#8, 0xAD#8] ∧
    encode (.g [0xF1#8, 0xFF#8]) = .frame [0x47#8, 0x02#8, 0x00#8, 0xF1#8, 0xFF#8] := by decide

/-- Rows of spec/opcode_table.json. -/
theorem test_decodeTableWord :
    decodeTableWord 32 0x101 = some (.encXfer .rle) ∧ decodeTableWord 32 0x4 = some .rleDec ∧
    decodeTableWord 8 0x47 = some (.g []) ∧ decodeTableWord 8 0x5A = some .z ∧
    decodeTableWord 8 0x01 = some (.lit [0#8, 0#8]) ∧ decodeTableWord 8 0xFF = some (.rep 2 0#8) ∧
    decodeTableWord 8 0x80 = some .runReserved := by decide

/-! ## The codecs -/

/-- E7, E8, E13. -/
theorem test_rleEncode_vectors :
    rleEncode [0x41#8, 0x42#8, 0x42#8, 0x43#8] = [0x00#8, 0x41#8, 0xFF#8, 0x42#8, 0x00#8, 0x43#8] ∧
    rleEncode [0x41#8, 0x42#8, 0x43#8, 0x43#8] = [0x01#8, 0x41#8, 0x42#8, 0xFF#8, 0x43#8] ∧
    rleEncode [0x00#8, 0x00#8, 0x00#8, 0xFF#8, 0xFF#8, 0x12#8, 0x34#8, 0x56#8, 0x00#8, 0x00#8, 0x00#8, 0x00#8, 0x00#8, 0x00#8,
        0x80#8, 0x80#8] =
      [0xFE#8, 0x00#8, 0xFF#8, 0xFF#8, 0x02#8, 0x12#8, 0x34#8, 0x56#8, 0xFB#8, 0x00#8, 0xFF#8, 0x80#8] := by decide

set_option maxRecDepth 4000 in
/-- E17: a run of 129. -/
theorem test_rleEncode_cap : rleEncode (List.replicate 129 0xAA#8) = [0x81#8, 0xAA#8, 0x00#8, 0xAA#8] := by decide

/-- RD9, RD16, RD17. -/
theorem test_rleDecode_vectors :
    rleDecode [0x01#8, 0x80#8, 0x80#8] = .ok [0x80#8, 0x80#8] ∧
    rleDecode [0x00#8, 0xAA#8, 0x80#8] = .error (.rleRsvd, 2) ∧
    rleDecode [0xFF#8, 0x41#8, 0x05#8, 0x01#8, 0x02#8] = .error (.rleTrunc, 2) := by decide

/-- F1, F2, F8. -/
theorem test_frameEncode_vectors :
    frameEncode (List.replicate 16 0x00#8) .raw = [0x5A#8] ∧
    frameEncode (List.replicate 16 0xFF#8) .rle = [0x47#8, 0x02#8, 0x00#8, 0xF1#8, 0xFF#8] ∧
    frameEncode (0x80#8 :: List.replicate 15 0x00#8) .rle =
      [0x47#8, 0x04#8, 0x00#8, 0x00#8, 0x80#8, 0xF2#8, 0x00#8] := by decide

/-- S4, the 33-byte bitmap. -/
theorem test_encodeTransfer_33 :
    encodeTransfer (List.replicate 16 0xFF#8 ++ List.replicate 16 0x00#8 ++ [0x80#8]) .rle =
      [0x47#8, 0x02#8, 0x00#8, 0xF1#8, 0xFF#8, 0x5A#8, 0x47#8, 0x04#8, 0x00#8, 0x00#8, 0x80#8, 0xF2#8, 0x00#8] := by decide

/-- X10, X15, X23: the error, its offset and the lines before it. -/
theorem test_decodeTransfer_vectors :
    decodeTransfer [0x5A#8, 0x47#8, 0x02#8, 0x00#8, 0xF1#8, 0xFF#8, 0x58#8, 0x5A#8] .rle =
      .error (.tag, 6, List.replicate 16 0x00#8 ++ List.replicate 16 0xFF#8) ∧
    decodeTransfer ([0x47#8, 0x11#8, 0x00#8] ++ List.replicate 16 0x01#8) .raw = .error (.frameTrunc, 0, []) ∧
    decodeTransfer [0x47#8, 0x03#8, 0x00#8, 0x81#8, 0x41#8, 0x80#8] .rle = .error (.rleRsvd, 0, []) := by decide

/-! ## Single steps -/

/-- R147's first step, on the first 16 bytes of the worked trace. -/
theorem test_step_encXfer :
    (nextOf (engineStep (job 1#3 .rle 33#32 (List.replicate 16 0xFF#8)))).map
        (fun t => (t.outq, t.inPos, t.outLen, t.unitCnt)) =
      some ([0x47#8, 0x02#8, 0x00#8, 0xF1#8, 0xFF#8], 16#32, 5#32, 1#32) := by decide

/-- R136: one byte short of the line the engine holds. -/
theorem test_step_encXfer_holds :
    nextOf (engineStep (job 1#3 .rle 33#32 (List.replicate 15 0xFF#8))) = some (job 1#3 .rle 33#32 (List.replicate 15 0xFF#8)) := by
  decide

/-- R139's example: `FRAME_TRUNC` at 0, all four bytes drained. -/
theorem test_step_decXfer_fault :
    (nextOf (engineStep (fullJob 2#3 .rle [0x47#8, 0x05#8, 0x00#8, 0xF1#8]))).map
        (fun t => (t.status, t.errPos, t.inPos, t.inq, t.outq)) =
      some (0x01020206#32, 0#32, 4#32, [], []) := by decide

/-- R139: a reserved tag with a byte of the input still to come holds: the fault step waits for the drain (R157). -/
theorem test_step_decXfer_holds :
    nextOf (engineStep (job 2#3 .rle 2#32 [0x67#8])) = some (job 2#3 .rle 2#32 [0x67#8]) := by decide

/-- R141's example: `41 41 42` pops 2, pushes FF 41. -/
theorem test_step_rleEnc :
    (nextOf (engineStep (fullJob 3#3 .raw [0x41#8, 0x41#8, 0x42#8]))).map (fun t => (t.inq, t.outq, t.inPos)) =
      some ([0x42#8], [0xFF#8, 0x41#8], 2#32) := by decide

/-- R143's example: FD 2A gives four copies. -/
theorem test_step_rleDec :
    (nextOf (engineStep (fullJob 4#3 .raw [0xFD#8, 0x2A#8]))).map (fun t => (t.outq, t.unitCnt, t.st)) =
      some ([0x2A#8, 0x2A#8, 0x2A#8, 0x2A#8], 1#32, .busy) := by decide

/-- K3, before the completion step and after it. -/
theorem test_step_command_start :
    (nextOf (hostStep (.writeReg .word 0 0x101#32) State.reset)).map (fun t => (t.status, (nextOf (engineStep t)).map State.status)) =
      some (0x01010001#32, some 0x01010002#32) := by decide

/-- K13, K16 from the fault state: the error is replaced, the counters cleared, the queues kept. -/
theorem test_step_command_illegal :
    (nextOf (exec (.cmdIllegal 0x00000009#32) faulted)).map (fun t => (t.status, t.errPos, t.inq, t.outq, t.inLen)) =
      some (0x00010706#32, 0#32, [0x11#8], [0xAA#8], 7#32) ∧
    (nextOf (exec (.cmdIllegal 0xFFFFFFFF#32) State.reset)).map State.status = some 0x01070706#32 := by decide

/-- R132's example: after a faulted job `CLR` returns `STATUS` to 0. -/
theorem test_step_clr : (nextOf (exec .clr faulted)).map (fun t => (t.status, t.st, t.inPos)) = some (0#32, .idle, 0#32) := by
  decide

/-- R130: writes while busy change nothing. -/
theorem test_step_busy_ignores :
    nextOf (hostStep (.writeReg .word 0 0#32) (fullJob 4#3 .raw [0xFD#8, 0x2A#8])) = some (fullJob 4#3 .raw [0xFD#8, 0x2A#8]) ∧
    nextOf (hostStep (.writeReg .word 4 9#32) (fullJob 4#3 .raw [0xFD#8, 0x2A#8])) = some (fullJob 4#3 .raw [0xFD#8, 0x2A#8]) := by
  decide

/-- R34, R33: what a read tells the host. -/
theorem test_step_read :
    (nextOf (hostStep (.readReg .word 8) faulted)).map State.seen = some [.word 8 0x00040506#32] ∧
    (nextOf (hostStep (.readReg .word 0x1C) faulted)).map State.seen = some [.word 0x1C 0#32] := by decide

/-- The table words run as the first instruction after reset. -/
theorem test_step_fetchWord :
    (nextOf (step (State.reset.withFetchWord 32 0x3))).map State.status = some 0x00030001#32 ∧
    (nextOf (step (State.reset.withFetchWord 8 0x5A))).map State.outq = some (List.replicate 16 0#8) ∧
    (nextOf (step (State.reset.withFetchWord 8 0xFF))).map State.outq = some [0#8, 0#8] ∧
    (nextOf (step (State.reset.withFetchWord 8 0x80))).map State.errCode = some 5#4 ∧
    (nextOf (step (State.reset.withFetchWord 8 0x47))).map State.errCode = some 3#4 := by decide

/-! ## Witnesses: cases that meet a statement's hypotheses -/

/-- Each field at the ends of its range. -/
theorem test_witness_DecodeEncodeEveryInstr :
    wellFormed (.g []) = true ∧ wellFormed (.g (List.replicate 65535 0#8)) = true ∧ wellFormed (.lit [0#8]) = true ∧
    wellFormed (.lit (List.replicate 128 0#8)) = true ∧ wellFormed (.rep 2 0#8) = true ∧ wellFormed (.rep 128 0#8) = true ∧
    wellFormed (.cmdIllegal 0x005#32) = true ∧ wellFormed (.cmdIllegal 0xFFFFFFFF#32) = true ∧
    wellFormed (.frameReservedTag 0x00#8) = true ∧ wellFormed (.frameReservedTag 0xFF#8) = true := by
  refine ⟨by decide, ?_, by decide, ?_, by decide, by decide, by decide, by decide, by decide, by decide⟩ <;>
    (simp only [wellFormed, List.length_replicate]; decide)

theorem test_witness_StreamDecodeSelfDelimiting :
    (wellFormed (.g [0x80#8]) = true ∧ isFrame (.g [0x80#8]) = true) ∧ (wellFormed (.rep 2 0#8) = true ∧ isRun (.rep 2 0#8) = true) := by
  decide

theorem test_witness_DecodeLosesNoBit :
    decodeFrame [0x47#8, 0x01#8, 0x00#8, 0x80#8, 0x5A#8] = .ok (.g [0x80#8], [0x5A#8]) ∧
    decodeRun [0x81#8, 0x41#8, 0x80#8] = .ok (.rep 128 0x41#8, [0x80#8]) := by decide

/-- A legal word with `COMP` set, and the nearest illegal ones. -/
theorem test_witness_ExactlySevenLegalCommandWords :
    ((0x102#32).getLsbD 8 = true ∧ ((0x102#32).extractLsb' 0 3).toNat ≤ 4) ∧
    0x103#32 ∉ [0x000#32, 0x001#32, 0x101#32, 0x002#32, 0x102#32, 0x003#32, 0x004#32] ∧
    0x005#32 ∉ [0x000#32, 0x001#32, 0x101#32, 0x002#32, 0x102#32, 0x003#32, 0x004#32] := by decide

/-- The control bytes where the ranges meet; also for `RunRecordMeaning`. -/
theorem test_witness_RunRecordDecoding :
    ((0x00#8).toNat ≤ 127 ∧ (0x00#8).toNat + 1 ≤ [0x41#8].length) ∧
    ((0x7F#8).toNat ≤ 127 ∧ [0x41#8].length < (0x7F#8).toNat + 1) ∧
    (129 ≤ (0x81#8).toNat ∧ ¬ 129 ≤ (0x80#8).toNat ∧ ¬ (0x80#8).toNat ≤ 127 ∧ 129 ≤ (0xFF#8).toNat) := by decide

theorem test_witness_FrameDecoding :
    ((0x01#8).toNat + 256 * (0x00#8).toNat ≤ [0x80#8].length) ∧ ((0x00#8).toNat + 256 * (0x00#8).toNat ≤ ([] : List Byte).length) ∧
    ([0x80#8].length < (0x00#8).toNat + 256 * (0x01#8).toNat) ∧ ([0x02#8].length < 2) ∧
    ((0x48#8) ≠ 0x47#8 ∧ (0x48#8) ≠ 0x5A#8) := by decide

/-- S1's all-same-byte line: 16 bytes, not empty. -/
theorem test_witness_RleEncodeSize : List.replicate 16 0x55#8 ≠ [] ∧ (List.replicate 16 0x55#8).length = 16 := by decide

set_option maxRecDepth 8000 in
/-- E22: two adjacent literals. -/
theorem test_witness_EncoderNeverEmitsReserved :
    ((rleRecords ((List.range 129).map (BitVec.ofNat 8))).map fun i => (isRecord i, (recordData i).length)) =
      [(true, 128), (true, 1)] := by decide

theorem test_witness_RleDecodeSize :
    rleDecode [0xF1#8, 0xFF#8] = .ok (List.replicate 16 0xFF#8) ∧ (List.replicate 16 0xFF#8).length = 16 := by decide

/-- RD6 in both readings, and RD16's error behind a record. -/
theorem test_witness_RleDecodeAcceptsExactlyPackedBuffers :
    rleDecode [0x00#8, 0x41#8, 0x00#8, 0x41#8] = .ok [0x41#8, 0x41#8] ∧
    PackedAs [0x00#8, 0x41#8, 0x00#8, 0x41#8] [.lit [0x41#8], .lit [0x41#8]] ∧
    rleDecode [0x00#8, 0xAA#8, 0x80#8] = .error (.rleRsvd, 2) ∧
    PackedAs ([0x00#8, 0xAA#8, 0x80#8].take 2) [.lit [0xAA#8]] ∧ recParse [0x80#8] = .error .rleRsvd := by
  refine ⟨by decide, ⟨by decide, by decide⟩, by decide, ⟨by decide, by decide⟩, by decide⟩

/-- E6 and E8: a run, and a literal that stops before a pair. -/
theorem test_witness_ReferenceEncoderRuns :
    2 ≤ runLen [0x42#8, 0x42#8, 0x42#8] ∧ runLen [0x41#8, 0x42#8, 0x43#8, 0x43#8] = 1 := by decide

/-- The last line of 33 bytes. -/
theorem test_witness_LineSplitPartition : 2 < ((List.replicate 33 0x80#8).length + 15) / 16 := by decide

/-- Also for `FrameEncodeSizes`. -/
theorem test_witness_FrameEncodeCases :
    (List.replicate 16 0#8).length = 16 ∧ (List.replicate 16 0xFF#8).length = 16 ∧
    List.replicate 16 0xFF#8 ≠ List.replicate 16 0#8 := by decide

/-- X17, X7, X22, X24, X2: each kind of payload. -/
theorem test_witness_FrameParseCases :
    [0xF1#8, 0xFF#8].length ≠ 16 ∧
    ((0x10#8).toNat + 256 * (0x00#8).toNat ≤ (List.replicate 16 0x01#8).length ∧ (List.replicate 16 0x01#8).length = 16) ∧
    rleDecode [0x80#8] = .error (.rleRsvd, 0) ∧
    (rleDecode [0xF2#8, 0xFF#8] = .ok (List.replicate 15 0xFF#8) ∧ (List.replicate 15 0xFF#8).length ≠ 16) ∧
    rleDecode [0xF1#8, 0xFF#8] = .ok (List.replicate 16 0xFF#8) ∧
    frameParse .rle [0x5A#8] = .ok (1, List.replicate 16 0#8) := by decide

/-- X9, X1, X14. -/
theorem test_witness_DecodeTransferLoop :
    frameParse .rle [0x67#8] = .error .tag ∧ frameParse .rle [0x5A#8, 0x67#8] = .ok (1, List.replicate 16 0#8) ∧
    decodeTransfer ([0x5A#8, 0x5A#8].drop 1) .rle = .ok (List.replicate 16 0#8) ∧
    decodeTransfer ([0x5A#8, 0x67#8].drop 1) .rle = .error (.tag, 0, []) := by decide

/-- An encoder that is not the reference one: one literal for each byte (R82's "sixteen one-byte literals"). -/
def singles (x : List Byte) : List Byte := x.flatMap fun b => [0x00#8, b]

theorem test_witness_AnyConformingEncoderRoundTrip : ConformingEncoder singles := by
  intro x
  refine ⟨⟨x.map fun b => .lit [b], ?_, ?_⟩, ?_⟩
  · intro i hi
    obtain ⟨b, -, rfl⟩ := List.mem_map.mp hi
    exact ⟨rfl, rfl⟩
  · induction x with
    | nil => rfl
    | cons b xs ih =>
      simp only [singles, List.flatMap_cons, List.map_cons] at ih ⊢
      rw [ih]
      rfl
  · have key : (rleLoop (singles x)).err = none ∧ (rleLoop (singles x)).out = x := by
      induction x with
      | nil => exact ⟨rfl, rfl⟩
      | cons b xs ih =>
        have hp : recParse (0x00#8 :: b :: singles xs) = .ok (2, [b]) := by simp [recParse, decodeRun]
        have hs : singles (b :: xs) = 0x00#8 :: b :: singles xs := rfl
        have hd : (0x00#8 :: b :: singles xs).drop 2 = singles xs := rfl
        rw [hs, rleLoop_ok hp, hd]
        simp [ih.1, ih.2]
    simp only [rleDecode, key.1, key.2]

/-! ### Commands -/

/-- Not busy with a fault recorded, and idle with the invariant. -/
theorem test_witness_ClearCommand :
    faulted.st ≠ .busy ∧ (nextOf (exec .clr faulted)).isSome = true ∧ (fullJob 1#3 .raw []).st = .busy ∧
    State.reset.st = .idle := by decide

/-- Idle with a length written and input queued; for `ClearCommand`'s third clause. -/
theorem test_witness_ClearCommand_idle :
    StateInv { State.reset with inLen := 5#32, inq := [0x11#8] } ∧ ({ State.reset with inLen := 5#32 } : State).st = .idle := by
  refine ⟨?_, rfl⟩
  constructor <;> decide

/-- Also for `IllegalCommandWord`, `CommandWriteDispatch`, `CommandFrame`, `StatusWordLayout`. -/
theorem test_witness_JobStart :
    faulted.st ≠ .busy ∧ 0x101#32 ∈ [0x001#32, 0x101#32, 0x002#32, 0x102#32, 0x003#32, 0x004#32] ∧
    (nextOf (exec (decodeCmd 0x101#32) faulted)).isSome = true ∧
    0x100#32 ∉ [0x000#32, 0x001#32, 0x101#32, 0x002#32, 0x102#32, 0x003#32, 0x004#32] ∧
    (nextOf (exec (.cmdIllegal 0x100#32) faulted)).isSome = true := by decide

/-! ### Frames and records -/

/-- `ENC_XFER raw` framed a line; `DEC_XFER` has it queued: both compression types, at the bound of `ready`. -/
theorem test_witness_GFrameUnit :
    (fullJob 2#3 .raw ([0x47#8, 0x10#8, 0x00#8] ++ List.replicate 16 0x01#8)).ready = 3 + (List.replicate 16 0x01#8).length ∧
    (fullJob 2#3 .rle [0x47#8, 0x02#8, 0x00#8, 0xF1#8, 0xFF#8]).ready = 3 + [0xF1#8, 0xFF#8].length ∧
    rleDecode [0xF1#8, 0xFF#8] = .ok (List.replicate 16 0xFF#8) := by decide

/-- Each kind of error, with the input whole and with a byte of it still to come. -/
theorem test_witness_GFrameFaults :
    ((fullJob 2#3 .raw [0x47#8, 0x02#8, 0x00#8, 0xF1#8, 0xFF#8]).ready = 5 ∧
      (fullJob 2#3 .raw [0x47#8, 0x02#8, 0x00#8, 0xF1#8, 0xFF#8]).rem = 5) ∧
    ((job 2#3 .raw 6#32 [0x47#8, 0x02#8, 0x00#8, 0xF1#8, 0xFF#8]).ready = 5 ∧
      (job 2#3 .raw 6#32 [0x47#8, 0x02#8, 0x00#8, 0xF1#8, 0xFF#8]).rem = 6) ∧
    rleDecode [0x80#8] = .error (.rleRsvd, 0) ∧ rleDecode [0xF2#8, 0xFF#8] = .ok (List.replicate 15 0xFF#8) := by decide

/-- Also for `ReservedTagFaults`: one byte queued, the last one and not. -/
theorem test_witness_ZFrameUnit :
    ((fullJob 2#3 .raw [0x5A#8]).ready = 1 ∧ (fullJob 2#3 .raw [0x5A#8]).rem = 1) ∧
    ((job 2#3 .raw 2#32 [0x67#8]).ready = 1 ∧ (job 2#3 .raw 2#32 [0x67#8]).rem = 2) := by decide

/-- Also for `ReservedControlFaults`. -/
theorem test_witness_RunRecordUnits :
    (fullJob 4#3 .raw [0x00#8, 0x41#8]).ready = [0x41#8].length + 1 ∧ (fullJob 4#3 .raw [0xFF#8, 0x41#8]).ready = 2 ∧
    ((fullJob 4#3 .raw [0x80#8]).ready = 1 ∧ (fullJob 4#3 .raw [0x80#8]).rem = 1) ∧
    ((job 4#3 .raw 2#32 [0x80#8]).ready = 1 ∧ (job 4#3 .raw 2#32 [0x80#8]).rem = 2) := by decide

/-- Each of the three cases happens. -/
theorem test_witness_UnitInstrFrame :
    (nextOf (exec .z State.reset)) = some State.reset ∧
    (nextOf (exec .z (fullJob 2#3 .raw [0x5A#8]))).map State.st = some .busy ∧
    (nextOf (exec .runReserved (fullJob 4#3 .raw [0x80#8]))).map State.err = some true := by decide

theorem test_witness_UnitOutsideItsJob :
    isFrame .z = true ∧ State.reset.st ≠ .busy ∧ isRun .runReserved = true ∧ (fullJob 2#3 .raw [0x80#8]).op ≠ 4#3 := by decide

/-! ### Steps -/

/-- One state for each clause. -/
theorem test_witness_DecodedInstrRuns :
    State.reset.nextTurn = .engine ∧ (withTurn faulted (.host .outPop)).nextTurn = .host .outPop ∧
    (withTurn faulted (.host (.writeReg .word 0x00 0#32))).nextTurn = .host (.writeReg .word 0x00 0#32) ∧
    (1 ≤ (fullJob 2#3 .raw [0x5A#8]).rem ∧ decodeFrame (fullJob 2#3 .raw [0x5A#8]).window = .ok (.z, [])) ∧
    (1 ≤ (fullJob 4#3 .raw [0x80#8]).rem ∧ decodeRun (fullJob 4#3 .raw [0x80#8]).window = .ok (.runReserved, [])) := by decide

theorem test_witness_CompletionStep :
    (fullJob 4#3 .raw []).st = .busy ∧ (fullJob 4#3 .raw []).inPos = (fullJob 4#3 .raw []).inLen ∧ State.reset.inLen = 0#32 := by
  decide

/-- A whole line, the final partial line, and a line cut short. -/
theorem test_witness_EncXferUnitStep :
    min 16 (fullJob 1#3 .rle (List.replicate 17 0x80#8)).rem = 16 ∧ min 16 (fullJob 1#3 .rle [0x80#8]).rem = 1 ∧
    (job 1#3 .rle 2#32 [0x80#8]).inq.length < min 16 (job 1#3 .rle 2#32 [0x80#8]).rem := by decide

theorem test_witness_DecXferStep :
    1 ≤ (fullJob 2#3 .rle [0x5A#8]).rem ∧
    frameParse .rle (fullJob 2#3 .rle [0x5A#8]).window = .ok (1, List.replicate 16 0#8) ∧
    (frameParse .rle (fullJob 2#3 .rle [0x47#8]).window = .error .frameTrunc ∧
      (fullJob 2#3 .rle [0x47#8]).ready = (fullJob 2#3 .rle [0x47#8]).rem) ∧
    (frameParse .rle (job 2#3 .rle 3#32 [0x47#8]).window = .error .frameTrunc ∧
      (job 2#3 .rle 3#32 [0x47#8]).ready ≠ (job 2#3 .rle 3#32 [0x47#8]).rem) := by decide

/-- The look-ahead whole, and cut short. -/
theorem test_witness_RleEncUnitStep :
    (min (fullJob 3#3 .raw [0x41#8, 0x41#8, 0x42#8]).rem 129 = 3 ∧
      firstRun ((fullJob 3#3 .raw [0x41#8, 0x41#8, 0x42#8]).inq.take 3) = (2, .rep 2 0x41#8)) ∧
    (job 3#3 .raw 200#32 [0x41#8]).inq.length < min (job 3#3 .raw 200#32 [0x41#8]).rem 129 := by decide

theorem test_witness_RleDecStep :
    1 ≤ (fullJob 4#3 .raw [0xFD#8, 0x2A#8]).rem ∧
    recParse (fullJob 4#3 .raw [0xFD#8, 0x2A#8]).window = .ok (2, List.replicate 4 0x2A#8) ∧
    (recParse (fullJob 4#3 .raw [0xFE#8]).window = .error .rleTrunc ∧
      (fullJob 4#3 .raw [0xFE#8]).ready = (fullJob 4#3 .raw [0xFE#8]).rem) ∧
    (recParse (job 4#3 .raw 2#32 [0xFE#8]).window = .error .rleTrunc ∧
      (job 4#3 .raw 2#32 [0xFE#8]).ready ≠ (job 4#3 .raw 2#32 [0xFE#8]).rem) := by decide

/-- Also for `EngineHolds`. -/
theorem test_witness_EngineCommutesWithStreams :
    State.reset.st ≠ .busy ∧ faulted.outq ≠ [] ∧
    (∃ t, engineStep (fullJob 4#3 .raw [0xFD#8, 0x2A#8]) = .next t ∧ t ≠ fullJob 4#3 .raw [0xFD#8, 0x2A#8]) := by
  refine ⟨by decide, by decide, _, rfl, by decide⟩

/-- A running job that meets the invariant, its input queued. -/
theorem test_witness_EngineProgress :
    StateInv (fullJob 4#3 .raw [0xFD#8, 0x2A#8]) ∧ (fullJob 4#3 .raw [0xFD#8, 0x2A#8]).st = .busy ∧
    (fullJob 4#3 .raw [0xFD#8, 0x2A#8]).ready = (fullJob 4#3 .raw [0xFD#8, 0x2A#8]).rem := by
  refine ⟨?_, by decide, by decide⟩
  constructor <;> decide

/-- A unit step, a fault step and the completion step; also for `FaultKindsByOperation`. -/
theorem test_witness_EngineFrame :
    (nextOf (engineStep (fullJob 4#3 .raw [0xFD#8, 0x2A#8]))).isSome = true ∧
    (nextOf (engineStep (fullJob 2#3 .rle [0x67#8]))).map State.err = some true ∧
    (nextOf (engineStep (fullJob 2#3 .raw [0x47#8, 0x00#8, 0x00#8]))).map State.errCode = some 3#4 ∧
    (nextOf (engineStep (fullJob 4#3 .raw [0x80#8]))).map State.errCode = some 5#4 ∧
    (nextOf (hostStep (.writeReg .word 0x00 0x005#32) State.reset)).map State.err = some true := by decide

theorem test_witness_FaultEntryRecords : (job 2#3 .raw 3#32 []).inPos.toNat ≤ (job 2#3 .raw 3#32 []).inLen.toNat := by decide

/-- The first and the last named offset, the first reserved one, and offsets between words; for `RegisterReads`,
`RegisterWrites`, `UndefinedAccessRefused`. -/
theorem test_witness_RegisterReads :
    0x00 % 4 = 0 ∧ 0x18 % 4 = 0 ∧ 0x1C % 4 = 0 ∧ 0x1C ≤ 0x1C ∧ 0x08 ≤ 0x08 ∧ 0x05 % 4 ≠ 0 ∧
    (hostStep (.readReg .word 0x05) State.reset = .refused .misalignedAccess) := by
  refine ⟨by decide, by decide, by decide, by decide, by decide, by decide, rfl⟩

theorem test_witness_StreamPrimitives : faulted.outq = [0xAA#8] ∧ State.reset.outq = [] := by decide

/-- A step of a running job, from a state that meets the invariant. -/
theorem test_witness_StepKeepsInvariant :
    StateInv (fullJob 2#3 .rle [0x67#8]) ∧ StateInv faulted ∧ (nextOf (step (fullJob 2#3 .rle [0x67#8]))).isSome = true := by
  refine ⟨?_, ?_, by decide⟩ <;> constructor <;> decide

/-- One step for each of the five kinds of transition. -/
theorem test_witness_StateTransitions :
    (nextOf (step (fullJob 2#3 .rle []))).map State.st = some .done ∧
    (nextOf (step (withTurn faulted (.host .rst)))).map State.st = some .idle ∧
    (nextOf (step (withTurn faulted (.host (.writeReg .word 0x00 0x003#32))))).map State.st = some .busy ∧
    (nextOf (step (withTurn State.reset (.host (.writeReg .word 0x00 0x005#32))))).map State.st = some .done ∧
    (nextOf (step (withTurn faulted (.host (.writeReg .word 0x00 0x000#32))))).map State.st = some .idle := by decide

/-! ### Jobs -/

theorem fresh_job (op : BitVec 3) (comp : CompressionType) (len : Word) (input : List Byte) : FreshJob (job op comp len input) op :=
  ⟨rfl, rfl, rfl, rfl, rfl, rfl, rfl, rfl⟩

theorem test_witness_EncodeJobResults :
    ReadyJob (fullJob 1#3 .rle [0x80#8]) 1#3 ∧ ReadyJob (fullJob 3#3 .raw [0x41#8, 0x41#8, 0x42#8]) 3#3 :=
  ⟨⟨fresh_job _ _ _ _, by decide, rfl⟩, ⟨fresh_job _ _ _ _, by decide, rfl⟩⟩

/-- X2, X9, RD5, RD16. -/
theorem test_witness_DecodeJobResults :
    (ReadyJob (fullJob 2#3 .rle [0x47#8, 0x02#8, 0x00#8, 0xF1#8, 0xFF#8]) 2#3 ∧
      decodeTransfer (fullJob 2#3 .rle [0x47#8, 0x02#8, 0x00#8, 0xF1#8, 0xFF#8]).jobInput .rle = .ok (List.replicate 16 0xFF#8)) ∧
    (ReadyJob (fullJob 2#3 .rle [0x67#8]) 2#3 ∧ decodeTransfer (fullJob 2#3 .rle [0x67#8]).jobInput .rle = .error (.tag, 0, [])) ∧
    (ReadyJob (fullJob 4#3 .raw [0xFD#8, 0x2A#8]) 4#3 ∧
      rleDecode (fullJob 4#3 .raw [0xFD#8, 0x2A#8]).jobInput = .ok (List.replicate 4 0x2A#8)) ∧
    (ReadyJob (fullJob 4#3 .raw [0x00#8, 0xAA#8, 0x80#8]) 4#3 ∧
      rleDecode (fullJob 4#3 .raw [0x00#8, 0xAA#8, 0x80#8]).jobInput = .error (.rleRsvd, 2)) :=
  ⟨⟨⟨fresh_job _ _ _ _, by decide, rfl⟩, by decide⟩, ⟨⟨fresh_job _ _ _ _, by decide, rfl⟩, by decide⟩,
    ⟨⟨fresh_job _ _ _ _, by decide, rfl⟩, by decide⟩, ⟨⟨fresh_job _ _ _ _, by decide, rfl⟩, by decide⟩⟩

/-- RD3 with its two bytes pushed between turns of the engine, and a pop. -/
def interleaved : State :=
  { job 4#3 .raw 2#32 [] with
    turns := [.engine, .host (.inPush 0xFF#8), .engine, .host (.inPush 0x41#8), .engine, .host .outPop, .host (.readReg .word 8)] }

theorem test_witness_JobResultOfAnyInterleaving :
    FreshJob interleaved 4#3 ∧ (∀ x ∈ interleaved.turns, quietTurn x = true) ∧
    ∃ t, Sys2Proof.core.run 8 interleaved = .next t ∧ t.st = .done ∧ poppedBytes t.seen ++ t.outq = [0x41#8, 0x41#8] :=
  ⟨⟨rfl, rfl, rfl, rfl, rfl, rfl, rfl, rfl⟩, by decide, _, rfl, rfl, by decide⟩

end Sys2Proof.Tests
end

/-! # The family of 10_state.md: registers, status, streams, reset and the invariant -/

namespace Sys2Proof.Machine

/-! ## Register accesses and the host's moves -/

theorem accessRefusal_aligned {off : Nat} (h : off % 4 = 0) : accessRefusal .word off = none := if_pos h

theorem accessRefusal_misaligned {off : Nat} (h : off % 4 ≠ 0) :
    accessRefusal .word off = some .misalignedAccess := if_neg h

theorem hostStep_read_aligned (s : State) {off : Nat} (h : off % 4 = 0) :
    hostStep (.readReg .word off) s = .next { s with seen := s.seen ++ [.word off (s.readWord off)] } := by
  simp only [hostStep, hostRead, accessRefusal_aligned h]

theorem hostStep_write_aligned (s : State) {off : Nat} (v : Word) (h : off % 4 = 0) :
    hostStep (.writeReg .word off v) s = writeWord off v s := by
  simp only [hostStep, hostWrite, accessRefusal_aligned h]

theorem hostStep_writeCmd (s : State) (w : Word) :
    hostStep (.writeReg .word 0x00 w) s = exec (decodeCmd w) s := rfl

/-- R33: `CMD` and `IN_LEN` are the only registers a write reaches. -/
theorem writeWord_ignored (s : State) {off : Nat} (v : Word) (h : 0x08 ≤ off) : writeWord off v s = .next s := by
  have h0 : off ≠ 0x00 := by omega
  have h4 : off ≠ 0x04 := by omega
  simp only [writeWord, if_neg h0, if_neg h4]

theorem writeWord_inLen_busy (s : State) (v : Word) (h : s.st = .busy) : writeWord 0x04 v s = .next s := if_pos h

theorem writeWord_inLen_free (s : State) (v : Word) (h : s.st ≠ .busy) :
    writeWord 0x04 v s = .next { s with inLen := v } := if_neg h

theorem writeWord_st {off : Nat} {v : Word} {s t : State} (h0 : off ≠ 0x00) (h : writeWord off v s = .next t) :
    t.st = s.st := by
  simp only [writeWord, if_neg h0] at h
  split at h
  · split at h <;> cases h <;> rfl
  · cases h
    rfl

/-- The events by which the host may change `st`: reset and a write to `CMD`. -/
theorem hostStep_st_cases {a : HostAction} {s t : State} (h : hostStep a s = .next t) :
    t.st = s.st ∨ (a = .rst ∧ t = s.resetBlock) ∨
      ∃ w, a = .writeReg .word 0x00 w ∧ exec (decodeCmd w) s = .next t := by
  cases a with
  | readReg width off =>
    simp only [hostStep, hostRead] at h
    split at h <;> cases h
    exact .inl rfl
  | writeReg width off w =>
    cases width with
    | byte => cases h
    | half => cases h
    | word =>
      by_cases ha : off % 4 = 0
      · rw [hostStep_write_aligned s w ha] at h
        by_cases h0 : off = 0x00
        · subst h0
          exact .inr (.inr ⟨w, rfl, h⟩)
        · exact .inl (writeWord_st h0 h)
      · simp only [hostStep, hostWrite, accessRefusal_misaligned ha] at h
        cases h
  | inPush b =>
    cases h
    exact .inl rfl
  | outPop =>
    simp only [hostStep, hostPop] at h
    split at h <;> cases h <;> exact .inl rfl
  | rst =>
    cases h
    exact .inr (.inl ⟨rfl, rfl⟩)

/-! ## What a command word does -/

/-- The legal command words that start a job (R71, R130). -/
def jobCommandWords : List Word := [0x001#32, 0x101#32, 0x002#32, 0x102#32, 0x003#32, 0x004#32]

theorem legalCommandWords_eq_cons : legalCommandWords = 0x000#32 :: jobCommandWords := rfl

theorem exec_decodeCmd_zero (s : State) : exec (decodeCmd 0x000#32) s = acceptCommand s s.clearStatus := rfl

/-- R131: each of the six job words starts the job its own fields name. -/
theorem exec_decodeCmd_job {w : Word} (s : State)
    (h : w ∈ jobCommandWords) :
    exec (decodeCmd w) s = acceptCommand s (s.startJob (cmdOp w) (cmdComp w)) := by
  simp only [jobCommandWords, List.mem_cons, List.not_mem_nil, or_false] at h
  rcases h with rfl | rfl | rfl | rfl | rfl | rfl <;> rfl

theorem decodeCmd_illegal {w : Word} (h : w ∉ legalCommandWords) : decodeCmd w = .cmdIllegal w := by
  simp only [legalCommandWords, List.mem_cons, List.not_mem_nil, or_false, not_or] at h
  obtain ⟨h0, h1, h101, h2, h102, h3, h4⟩ := h
  simp only [decodeCmd, if_neg h0, if_neg h1, if_neg h101, if_neg h2, if_neg h102, if_neg h3, if_neg h4]

theorem exec_decodeCmd_illegal {w : Word} (s : State) (h : w ∉ legalCommandWords) :
    exec (decodeCmd w) s = acceptCommand s (s.illegalCommand w) := by
  rw [decodeCmd_illegal h]
  rfl

/-- R130: every word is a job word, zero, or illegal. -/
theorem commandWord_cases (w : Word) :
    w ∈ jobCommandWords ∨ w = 0x000#32 ∨ w ∉ legalCommandWords := by
  by_cases hz : w = 0x000#32
  · exact .inr (.inl hz)
  · by_cases hj : w ∈ jobCommandWords
    · exact .inl hj
    · rw [legalCommandWords_eq_cons]
      exact .inr (.inr (List.not_mem_cons_of_ne_of_not_mem hz hj))

/-- R21: how an accepted command word may change `st`. -/
theorem exec_decodeCmd_st_change {s t : State} {w : Word} (h : exec (decodeCmd w) s = .next t) (hne : t.st ≠ s.st) :
    (s.st ≠ .busy ∧ w ∈ jobCommandWords ∧ t.st = .busy) ∨
      (s.st = .idle ∧ w ∉ legalCommandWords ∧ t.st = .done ∧ t.err = true) ∨
      (s.st = .done ∧ w = 0x000#32 ∧ t.st = .idle) := by
  have accepted : ∀ {a : State}, acceptCommand s a = .next t → s.st ≠ .busy ∧ t = a := by
    intro a ha
    rcases acceptCommand_cases ha with ⟨-, rfl⟩ | hfree
    · exact absurd rfl hne
    · exact hfree
  rcases commandWord_cases w with hj | rfl | hi
  · rw [exec_decodeCmd_job s hj] at h
    obtain ⟨hf, rfl⟩ := accepted h
    exact .inl ⟨hf, hj, rfl⟩
  · rw [exec_decodeCmd_zero] at h
    obtain ⟨hf, rfl⟩ := accepted h
    cases hs : s.st with
    | idle => exact absurd hs.symm hne
    | busy => exact absurd hs hf
    | done => exact .inr (.inr ⟨rfl, rfl, rfl⟩)
  · rw [exec_decodeCmd_illegal s hi] at h
    obtain ⟨hf, rfl⟩ := accepted h
    cases hs : s.st with
    | idle => exact .inr (.inl ⟨rfl, hi, rfl, rfl⟩)
    | busy => exact absurd hs hf
    | done => exact absurd hs.symm hne

/-! ## What the engine's turn does -/

/-- R134: the engine changes `st` only by ending a job. -/
theorem EngineMove.st_change {s t : State} (h : EngineMove s t) (hne : t.st ≠ s.st) : s.st = .busy ∧ t.st = .done := by
  cases h with
  | stay => exact absurd rfl hne
  | complete hb _ => exact ⟨hb, rfl⟩
  | unit _ _ k out _ _ => exact absurd rfl hne
  | fault hb _ K _ _ => exact ⟨hb, rfl⟩

theorem inPos_ne_of_rem_pos {s : State} (h : 1 ≤ s.rem) : s.inPos ≠ s.inLen := by
  intro he
  simp only [State.rem, he] at h
  omega

theorem engineStep_decXfer {s : State} (hb : s.st = .busy) (ho : s.op = 2#3) (hr : 1 ≤ s.rem) :
    engineStep s = decXferStep s := by
  have hz : s.rem ≠ 0 := by omega
  simp [engineStep, hb, ho, hz, inPos_ne_of_rem_pos hr]

theorem engineStep_rleDec {s : State} (hb : s.st = .busy) (ho : s.op = 4#3) (hr : 1 ≤ s.rem) :
    engineStep s = rleDecStep s := by
  have hz : s.rem ≠ 0 := by omega
  simp [engineStep, hb, ho, hz, inPos_ne_of_rem_pos hr]

theorem decXferStep_of_decoded {s : State} {i : Instr} {rest : List Byte} (h : decodeFrame s.window = .ok (i, rest)) :
    decXferStep s = exec i s := by
  simp only [decXferStep, h]

theorem rleDecStep_of_decoded {s : State} {i : Instr} {rest : List Byte} (h : decodeRun s.window = .ok (i, rest)) :
    rleDecStep s = exec i s := by
  simp only [rleDecStep, h]

theorem step_of_engine {s : State} (h : s.nextTurn = .engine) : step s = engineStep s.takeTurn := by
  simp only [step, h, runTurn]

theorem step_of_host {s : State} {a : HostAction} (h : s.nextTurn = .host a) : step s = hostStep a s.takeTurn := by
  simp only [step, h, runTurn]

/-! ## The fields of `STATUS` (R28) -/

theorem status_busy (s : State) : s.status.getLsbD 0 = decide (s.st = .busy) := by
  rw [status_getLsbD]
  simp [State.busy]

theorem status_done (s : State) : s.status.getLsbD 1 = decide (s.st = .done) := by
  rw [status_getLsbD]
  simp [State.done]

theorem status_err (s : State) : s.status.getLsbD 2 = s.err := by
  rw [status_getLsbD]
  simp

theorem status_comp (s : State) : s.status.getLsbD 24 = decide (s.comp = .rle) := by
  rw [status_getLsbD]
  simp

theorem status_bit_errCode (s : State) {i : Nat} (hi : i < 4) : s.status.getLsbD (8 + i) = s.errCode.getLsbD i := by
  have h1 : ¬ 8 + i = 1 := by omega
  have h2 : ¬ 8 + i = 2 := by omega
  have h16 : ¬ 16 ≤ 8 + i := by omega
  have h24 : ¬ 8 + i = 24 := by omega
  have h32 : 8 + i < 32 := by omega
  rw [status_getLsbD]
  simp [h1, h2, h16, h24, h32]

theorem status_bit_op (s : State) {i : Nat} (hi : i < 3) : s.status.getLsbD (16 + i) = s.op.getLsbD i := by
  have h1 : ¬ 16 + i = 1 := by omega
  have h2 : ¬ 16 + i = 2 := by omega
  have h24 : ¬ 16 + i = 24 := by omega
  have h32 : 16 + i < 32 := by omega
  have hcode : s.errCode.getLsbD (16 + i - 8) = false := BitVec.getLsbD_of_ge _ _ (by omega)
  rw [status_getLsbD]
  simp [h1, h2, h24, h32, hcode]

/-- Bits 7:3, 15:12, 23:19 and 31:25 read 0. -/
theorem status_bit_reserved (s : State) {i : Nat}
    (hi : (3 ≤ i ∧ i < 8) ∨ (12 ≤ i ∧ i < 16) ∨ (19 ≤ i ∧ i < 24) ∨ 25 ≤ i) : s.status.getLsbD i = false := by
  have hcode : (decide (8 ≤ i) && s.errCode.getLsbD (i - 8)) = false := by
    by_cases h8 : 8 ≤ i
    · simp [BitVec.getLsbD_of_ge s.errCode (i - 8) (by omega)]
    · simp [h8]
  have hop : (decide (16 ≤ i) && s.op.getLsbD (i - 16)) = false := by
    by_cases h16 : 16 ≤ i
    · simp [BitVec.getLsbD_of_ge s.op (i - 16) (by omega)]
    · simp [h16]
  have h0 : ¬ i = 0 := by omega
  have h1 : ¬ i = 1 := by omega
  have h2 : ¬ i = 2 := by omega
  have h24 : ¬ i = 24 := by omega
  rw [status_getLsbD]
  simp [hcode, hop, h0, h1, h2, h24]

theorem extractLsb'_eq_of_bits {w lo n : Nat} {x : BitVec w} {v : BitVec n}
    (h : ∀ i, i < n → x.getLsbD (lo + i) = v.getLsbD i) : x.extractLsb' lo n = v := by
  apply BitVec.eq_of_getLsbD_eq
  intro i hi
  simp [hi, h i hi]

theorem status_errCode (s : State) : s.status.extractLsb' 8 4 = s.errCode :=
  extractLsb'_eq_of_bits fun _ => status_bit_errCode s

theorem status_op (s : State) : s.status.extractLsb' 16 3 = s.op :=
  extractLsb'_eq_of_bits fun _ => status_bit_op s

theorem status_reserved (s : State) {lo n : Nat}
    (h : ∀ i, i < n → (3 ≤ lo + i ∧ lo + i < 8) ∨ (12 ≤ lo + i ∧ lo + i < 16) ∨ (19 ≤ lo + i ∧ lo + i < 24) ∨ 25 ≤ lo + i) :
    s.status.extractLsb' lo n = 0#n :=
  extractLsb'_eq_of_bits fun i hi => by rw [status_bit_reserved s (h i hi), BitVec.getLsbD_zero]

theorem compOfBit_eq_rle (b : Bool) : decide (compOfBit b = .rle) = b := by
  cases b <;> rfl

theorem cmdComp_eq_rle (w : Word) : decide (cmdComp w = .rle) = w.getLsbD 8 := compOfBit_eq_rle (w.getLsbD 8)

/-! ## The invariants of R40 under each operation -/

theorem errCodeOf_range (K : ErrKind) : 1 ≤ (errCodeOf K).toNat ∧ (errCodeOf K).toNat ≤ 7 := by
  cases K <;> decide

/-- The invariants speak of registers only, so the queues and the model's own fields may change freely. -/
theorem StateInv.withQueues {s : State} (h : StateInv s) (inq outq : List Byte) (turns : List Turn) (seen : List Seen) :
    StateInv { s with inq := inq, outq := outq, turns := turns, seen := seen } :=
  ⟨h.cursor, h.idle, h.idleCommand, h.faulted, h.clean, h.operation, h.units⟩

theorem StateInv.takeTurn {s : State} (h : StateInv s) : StateInv s.takeTurn := h.withQueues _ _ _ _

/-- R27: `IN_LEN` is free outside a running job. -/
theorem StateInv.withInLen {s : State} (h : StateInv s) (hf : s.st ≠ .busy) (v : Word) :
    StateInv { s with inLen := v } :=
  ⟨fun hb => absurd hb hf, h.idle, h.idleCommand, h.faulted, h.clean, h.operation, h.units⟩

theorem StateInv.complete {s : State} (h : StateInv s) : StateInv s.complete where
  cursor := nofun
  idle := nofun
  idleCommand := nofun
  faulted he := ⟨rfl, (h.faulted he).2⟩
  clean := h.clean
  operation := nofun
  units := h.units

/-- A unit takes a byte or more and no more than remains, so the cursor stays within `IN_LEN` and ahead of `UNIT_CNT`. -/
theorem StateInv.unitStep {s : State} (h : StateInv s) (hb : s.st = .busy) {k : Nat} (out : List Byte) (hk : 1 ≤ k)
    (hr : k ≤ s.ready) : StateInv (s.unitStep k out) := by
  have hrem : k ≤ s.rem := hr.trans (ready_le_rem s)
  have hpos := inPos_add_toNat s k hrem
  have hcur := h.cursor hb
  have hidle : s.st ≠ .idle := by simp [hb]
  refine ⟨fun _ => ?_, fun hi => absurd hi hidle, fun hi => absurd hi hidle, h.faulted, h.clean, h.operation, ?_⟩
  · rw [State.unitStep_inPos, State.unitStep_inLen, hpos]
    simp only [State.rem] at hrem
    omega
  · have hu := h.units
    rw [State.unitStep_inPos, State.unitStep_unitCnt, hpos, BitVec.toNat_add]
    have := Nat.mod_le (s.unitCnt.toNat + (1#32).toNat) (2 ^ 32)
    simp only [BitVec.toNat_ofNat] at this ⊢
    omega

theorem StateInv.faultEntry {s : State} (h : StateInv s) (K : ErrKind) : StateInv (s.faultEntry K) where
  cursor := nofun
  idle := nofun
  idleCommand := nofun
  faulted _ := ⟨rfl, errCodeOf_range K⟩
  clean := nofun
  operation := nofun
  units := by
    rw [State.faultEntry_inPos, State.faultEntry_unitCnt, inPos_add_toNat s s.rem (Nat.le_refl _)]
    exact h.units.trans (Nat.le_add_right _ _)

theorem stateInv_startJob (s : State) {op : BitVec 3} (comp : CompressionType) (hop : 1 ≤ op.toNat ∧ op.toNat ≤ 4) :
    StateInv (s.startJob op comp) where
  cursor _ := Nat.zero_le _
  idle := nofun
  idleCommand := nofun
  faulted := nofun
  clean _ := ⟨rfl, rfl⟩
  operation _ := hop
  units := Nat.le_refl _

theorem stateInv_clearStatus (s : State) : StateInv s.clearStatus where
  cursor := nofun
  idle _ := ⟨rfl, rfl, rfl, rfl, rfl, rfl⟩
  idleCommand _ := ⟨rfl, rfl⟩
  faulted := nofun
  clean _ := ⟨rfl, rfl⟩
  operation := nofun
  units := Nat.le_refl _

theorem stateInv_illegalCommand (s : State) (w : Word) : StateInv (s.illegalCommand w) where
  cursor := nofun
  idle := nofun
  idleCommand := nofun
  faulted _ := ⟨rfl, errCodeOf_range .cmd⟩
  clean := nofun
  operation := nofun
  units := Nat.le_refl _

theorem stateInv_reset : StateInv State.reset := stateInv_clearStatus State.reset

theorem stateInv_resetBlock (s : State) : StateInv s.resetBlock := stateInv_reset.withQueues _ _ _ _

/-! ## Every move keeps the invariants -/

theorem ExecMove.keeps_inv {s t : State} (h : ExecMove s t) (hi : StateInv s) : StateInv t := by
  cases h with
  | stay => exact hi
  | clear _ => exact stateInv_clearStatus s
  | start _ op comp hop => exact stateInv_startJob s comp hop
  | illegal _ w => exact stateInv_illegalCommand s w
  | unit hb k out hk hr => exact hi.unitStep hb out hk hr
  | fault _ K _ _ => exact hi.faultEntry K

theorem EngineMove.keeps_inv {s t : State} (h : EngineMove s t) (hi : StateInv s) : StateInv t := by
  cases h with
  | stay => exact hi
  | complete _ _ => exact hi.complete
  | unit hb _ k out hk hr => exact hi.unitStep hb out hk hr
  | fault _ _ K _ _ => exact hi.faultEntry K

theorem HostMove.keeps_inv {s t : State} (h : HostMove s t) (hi : StateInv s) : StateInv t := by
  cases h with
  | command _ hm => exact hm.keeps_inv hi
  | told x => exact hi.withQueues _ _ _ _
  | length hf v => exact hi.withInLen hf v
  | push b => exact hi.withQueues _ _ _ _
  | pop b rest _ => exact hi.withQueues _ _ _ _
  | reset => exact stateInv_resetBlock s

/-! ## The statements -/

/-- Settles O53: each move of the engine and of the host keeps the invariants, and a step is one such move. -/
theorem stepKeepsInvariant : Obligations.StepKeepsInvariant := by
  intro s t hi h
  rcases step_cases h with ⟨-, hm⟩ | ⟨a, -, hm⟩
  · exact hm.keeps_inv hi.takeTurn
  · exact hm.keeps_inv hi.takeTurn

/-- Settles O27, field by field; an illegal word is latched when the command is accepted. -/
theorem statusWordLayout : Obligations.StatusWordLayout := by
  refine ⟨fun s => ?_, fun s v => ?_, fun s t w hf h => ?_⟩
  · exact ⟨status_busy s, status_done s, status_err s, status_reserved s (by omega), status_errCode s,
      status_reserved s (by omega), status_op s, status_reserved s (by omega), status_comp s,
      status_reserved s (by omega)⟩
  · rw [hostStep_write_aligned s v (by decide), writeWord_ignored s v (by decide)]
  · rcases acceptCommand_cases h with ⟨hb, -⟩ | ⟨-, rfl⟩
    · exact absurd hb hf
    · rw [status_op, status_comp, State.illegalCommand_op, State.illegalCommand_comp, cmdComp_eq_rle]
      exact ⟨rfl, rfl⟩

/-- Settles O55: the engine's moves, reset, and the four outcomes of a `CMD` write. -/
theorem stateTransitions : Obligations.StateTransitions := by
  refine ⟨fun s => ?_, fun s t h hne => ?_⟩
  · rw [status_busy, status_done]
    cases s.st <;> decide
  · cases hn : s.nextTurn with
    | engine =>
      rw [step_of_engine hn] at h
      exact .inl ⟨rfl, (engineStep_move h).st_change hne⟩
    | host a =>
      rw [step_of_host hn] at h
      rcases hostStep_st_cases h with hst | ⟨rfl, rfl⟩ | ⟨w, rfl, hw⟩
      · exact absurd hst hne
      · exact .inr (.inl ⟨rfl, rfl⟩)
      · exact .inr (.inr ⟨w, rfl, exec_decodeCmd_st_change (s := s.takeTurn) hw hne⟩)

/-- Settles O36: taking a turn off changes nothing that decoding the queued input or the choice of the job's step reads. -/
theorem decodedInstrRuns : Obligations.DecodedInstrRuns := by
  refine ⟨fun s hn => step_of_engine hn, fun s a hn => step_of_host hn, fun s w hn => ?_,
    fun s i rest hn hb ho hr hd => ?_, fun s i rest hn hb ho hr hd => ?_⟩
  · rw [step_of_host hn, hostStep_writeCmd]
    rfl
  · have hd' : decodeFrame s.takeTurn.window = .ok (i, rest) := hd
    rw [step_of_engine hn, engineStep_decXfer (s := s.takeTurn) hb ho hr, decXferStep_of_decoded hd']
    rfl
  · have hd' : decodeRun s.takeTurn.window = .ok (i, rest) := hd
    rw [step_of_engine hn, engineStep_rleDec (s := s.takeTurn) hb ho hr, rleDecStep_of_decoded hd']
    rfl

/-- Settles O48: the six registers by their offsets, and no offset from 0x1C up is one of theirs. -/
theorem registerReads : Obligations.RegisterReads := by
  refine ⟨fun s off h => hostStep_read_aligned s h, fun s => ⟨rfl, rfl, rfl, rfl, rfl, rfl, rfl, fun off h => ?_⟩⟩
  have h04 : off ≠ 0x04 := by omega
  have h08 : off ≠ 0x08 := by omega
  have h0C : off ≠ 0x0C := by omega
  have h10 : off ≠ 0x10 := by omega
  have h14 : off ≠ 0x14 := by omega
  have h18 : off ≠ 0x18 := by omega
  simp only [State.readWord, if_neg h04, if_neg h08, if_neg h0C, if_neg h10, if_neg h14, if_neg h18]

/-- Settles O49, from what a write of an aligned word does at each offset. -/
theorem registerWrites : Obligations.RegisterWrites := by
  refine fun s v => ⟨fun hf => ?_, fun hb => ?_, fun off ha h => ?_⟩
  · rw [hostStep_write_aligned s v (by decide), writeWord_inLen_free s v hf]
  · rw [hostStep_write_aligned s v (by decide), writeWord_inLen_busy s v hb]
  · rw [hostStep_write_aligned s v ha, writeWord_ignored s v h]

/-- Settles O50: the width is refused before the offset is looked at. -/
theorem undefinedAccessRefused : Obligations.UndefinedAccessRefused := by
  refine fun s off v => ⟨rfl, rfl, rfl, rfl, fun h => ⟨?_, ?_⟩⟩
  · simp only [hostStep, hostRead, accessRefusal_misaligned h]
  · simp only [hostStep, hostWrite, accessRefusal_misaligned h]

/-- Settles O51, by whether OUT is empty. -/
theorem streamPrimitives : Obligations.StreamPrimitives := by
  refine ⟨fun s b => rfl, fun s b rest h => ?_, fun s h => ?_⟩
  · simp only [hostStep, hostPop, h]
  · simp only [hostStep, hostPop, h]

/-- Settles O52: reset takes each register's value from `State.reset`, whatever the state. -/
theorem resetLeaves : Obligations.ResetLeaves :=
  ⟨fun _ => rfl, rfl, rfl, by decide, rfl, rfl, rfl, rfl, rfl, rfl⟩

/-- Settles O54: the state after reset is the one `CLR` would leave there. -/
theorem resetMeetsInvariant : Obligations.ResetMeetsInvariant := stateInv_reset

end Sys2Proof.Machine

/-! # The family of 20_memory.md: the two streams, and a job's result from what is on them -/

namespace Sys2Proof.Machine

/-! ## Frames and run records on a stream -/

/-- What a frame or run record stands for, or its error (R91 to R93, R113 to R115). A command word is on no stream: its answer
means nothing. -/
def unitOutput (comp : CompressionType) : Instr → Except ErrKind (List Byte)
  | .g payload => payloadLine comp payload
  | .z => .ok zeroLine
  | .frameReservedTag _ => .error .tag
  | .lit data => .ok data
  | .rep n b => .ok (List.replicate n b)
  | .runReserved => .error .rleRsvd
  | _ => .error .cmd

theorem streamBytes_g_length (p : List Byte) : (streamBytes (.g p)).length = 3 + p.length := by
  simp only [streamBytes, encode, Encoding.streamBytes, le16, List.cons_append, List.nil_append, List.length_cons]
  omega

theorem streamBytes_lit_length (d : List Byte) : (streamBytes (.lit d)).length = d.length + 1 := rfl

/-- A frame is a unit of `DEC_XFER`'s input (R138, R139). -/
theorem exec_frame {i : Instr} (hi : isFrame i = true) (s : State) :
    exec i s = decodeUnit s 2#3 (streamBytes i).length (unitOutput s.comp i) := by
  cases i with
  | g p => rw [streamBytes_g_length]; rfl
  | z => rfl
  | frameReservedTag tag => rfl
  | _ => cases hi

/-- A run record is a unit of `RLE_DEC`'s input (R143, R144). -/
theorem exec_run {i : Instr} (hi : isRun i = true) (s : State) :
    exec i s = decodeUnit s 4#3 (streamBytes i).length (unitOutput s.comp i) := by
  cases i with
  | lit d => rfl
  | rep n b => rfl
  | runReserved => rfl
  | _ => cases hi

theorem frameParse_of_decoded {comp : CompressionType} {q rest : List Byte} {i : Instr} (hi : isFrame i = true)
    (h : decodeFrame q = .ok (i, rest)) :
    frameParse comp q = (unitOutput comp i).map fun line => ((streamBytes i).length, line) := by
  simp only [frameParse, h]
  cases i with
  | g p => rw [streamBytes_g_length]; rfl
  | z => rfl
  | frameReservedTag tag => rfl
  | _ => cases hi

theorem recParse_of_decoded (comp : CompressionType) {q rest : List Byte} {i : Instr} (hi : isRun i = true)
    (h : decodeRun q = .ok (i, rest)) :
    recParse q = (unitOutput comp i).map fun d => ((streamBytes i).length, d) := by
  simp only [recParse, h]
  cases i with
  | lit d => rfl
  | rep n b => rfl
  | runReserved => rfl
  | _ => cases hi

/-- What decodes is a frame within the bytes read, and bytes behind it do not matter (R79). -/
theorem decodeFrame_ok {q rest : List Byte} {i : Instr} (h : decodeFrame q = .ok (i, rest)) :
    isFrame i = true ∧ (streamBytes i).length ≤ q.length ∧ ∀ z, decodeFrame (q ++ z) = .ok (i, rest ++ z) := by
  rcases q with _ | ⟨tag, body⟩
  · cases h
  by_cases hz : tag = 0x5A#8
  · simp only [decodeFrame, if_pos hz] at h
    cases h
    exact ⟨rfl, Nat.succ_pos _, fun z => if_pos hz⟩
  by_cases hg : tag = 0x47#8
  · rcases body with _ | ⟨lo, _ | ⟨hi, body⟩⟩
    · simp [decodeFrame, hg] at h
    · simp [decodeFrame, hg] at h
    · by_cases hcut : body.length < un16 lo hi
      · simp [decodeFrame, hg, hcut] at h
      · have hle : un16 lo hi ≤ body.length := by omega
        simp only [decodeFrame, if_neg hz, if_pos hg, if_neg hcut] at h
        cases h
        refine ⟨rfl, ?_, fun z => ?_⟩
        · rw [streamBytes_g_length, List.length_take]
          simp only [List.length_cons]
          omega
        · have hcut' : ¬ (body ++ z).length < un16 lo hi := by
            rw [List.length_append]
            omega
          simp only [List.cons_append, decodeFrame, if_neg hz, if_pos hg, if_neg hcut',
            List.take_append_of_le_length hle, List.drop_append_of_le_length hle]
  · simp only [decodeFrame, if_neg hz, if_neg hg] at h
    cases h
    refine ⟨rfl, Nat.succ_pos _, fun z => ?_⟩
    simp only [List.cons_append, decodeFrame, if_neg hz, if_neg hg]

/-- What decodes is a run record within the bytes read, and bytes behind it do not matter (R79). -/
theorem decodeRun_ok {q rest : List Byte} {i : Instr} (h : decodeRun q = .ok (i, rest)) :
    isRun i = true ∧ (streamBytes i).length ≤ q.length ∧ ∀ z, decodeRun (q ++ z) = .ok (i, rest ++ z) := by
  rcases q with _ | ⟨c, body⟩
  · cases h
  by_cases hl : c.toNat ≤ 0x7F
  · by_cases hcut : body.length < c.toNat + 1
    · simp [decodeRun, hl, hcut] at h
    · have hle : c.toNat + 1 ≤ body.length := by omega
      simp only [decodeRun, if_pos hl, if_neg hcut] at h
      cases h
      refine ⟨rfl, ?_, fun z => ?_⟩
      · rw [streamBytes_lit_length, List.length_take, List.length_cons]
        omega
      · have hcut' : ¬ (body ++ z).length < c.toNat + 1 := by
          rw [List.length_append]
          omega
        simp only [List.cons_append, decodeRun, if_pos hl, if_neg hcut', List.take_append_of_le_length hle,
          List.drop_append_of_le_length hle]
  by_cases hr : c = 0x80#8
  · simp only [decodeRun, if_neg hl, if_pos hr] at h
    cases h
    refine ⟨rfl, Nat.succ_pos _, fun z => ?_⟩
    simp only [List.cons_append, decodeRun, if_neg hl, if_pos hr]
  · rcases body with _ | ⟨b, body⟩
    · simp [decodeRun, hl, hr] at h
    · simp only [decodeRun, if_neg hl, if_neg hr] at h
      cases h
      refine ⟨rfl, ?_, fun z => ?_⟩
      · simp [streamBytes, encode, Encoding.streamBytes]
      · simp only [List.cons_append, decodeRun, if_neg hl, if_neg hr]

/-! ## The encoder's look-ahead (R141) -/

theorem matchLen_append (b : Byte) {cap : Nat} {q : List Byte} (z : List Byte) (h : cap ≤ q.length) :
    matchLen b cap (q ++ z) = matchLen b cap q := by
  induction cap generalizing q with
  | zero => simp only [matchLen]
  | succ cap ih =>
    rcases q with _ | ⟨x, xs⟩
    · cases h
    · simp only [List.cons_append, matchLen, ih (Nat.le_of_succ_le_succ h)]

theorem runLen_append {q : List Byte} (z : List Byte) (h : 128 ≤ q.length) : runLen (q ++ z) = runLen q := by
  rcases q with _ | ⟨b, xs⟩
  · cases h
  · rw [List.cons_append, runLen_cons, runLen_cons, matchLen_append b z (Nat.le_of_succ_le_succ h)]

/-- Two bytes tell whether a run of two or more begins. -/
theorem runLen_eq_one_iff (a b : Byte) (xs : List Byte) : runLen (a :: b :: xs) = 1 ↔ b ≠ a := by
  by_cases hb : b = a <;> simp [runLen_cons, matchLen, hb]

theorem litExtra_append {cap : Nat} {q : List Byte} (z : List Byte) (h : cap + 1 ≤ q.length) :
    litExtra cap (q ++ z) = litExtra cap q := by
  induction cap generalizing q with
  | zero => simp only [litExtra]
  | succ cap ih =>
    rcases q with _ | ⟨a, _ | ⟨b, xs⟩⟩
    · cases h
    · simp at h
    · have htail := ih (q := b :: xs) (Nat.le_of_succ_le_succ h)
      rw [List.cons_append] at htail
      simp only [List.cons_append, litExtra, runLen_eq_one_iff, htail]

/-- 129 bytes decide a turn of the encoder (R141). -/
theorem firstRun_append {q : List Byte} (z : List Byte) (h : 129 ≤ q.length) : firstRun (q ++ z) = firstRun q := by
  rcases q with _ | ⟨b, xs⟩
  · cases h
  have hlen : 129 ≤ xs.length + 1 := h
  have hrun : runLen (b :: (xs ++ z)) = runLen (b :: xs) := runLen_append z (q := b :: xs) (by omega)
  have hlit : litExtra 127 (xs ++ z) = litExtra 127 xs := litExtra_append z (by omega)
  have hcap := litExtra_le_cap 127 xs
  rw [List.cons_append]
  by_cases h2 : 2 ≤ runLen (b :: xs)
  · rw [firstRun_of_repeat b xs h2, firstRun_of_repeat b (xs ++ z) (by omega), hrun]
  · rw [firstRun_of_single b xs (by omega), firstRun_of_single b (xs ++ z) (by omega), hlit, ← List.cons_append,
      List.take_append_of_le_length (by simp only [List.length_cons]; omega)]

/-! ## One unit of a job's input -/

/-- The unit at the head of a job's remaining input: how many bytes it takes and what it gives, or its error (R136, R138,
R141, R143). -/
def jobUnit (op : BitVec 3) (comp : CompressionType) (q : List Byte) : Except ErrKind (Nat × List Byte) :=
  if op = 1#3 then .ok (min 16 q.length, frameEncode (padLine (q.take 16)) comp)
  else if op = 2#3 then frameParse comp q
  else if op = 3#3 then .ok ((firstRun q).1, streamBytes (firstRun q).2)
  else recParse q

/-- How many bytes decide a unit of raw input (R136, R141); a frame or record says by itself whether it is whole. -/
def lookAhead (op : BitVec 3) : Nat := if op = 1#3 then 16 else if op = 3#3 then 129 else 0

/-- The operations a job can have (R40 (e)). -/
theorem jobOp_cases {op : BitVec 3} (h : 1 ≤ op.toNat ∧ op.toNat ≤ 4) : op = 1#3 ∨ op = 2#3 ∨ op = 3#3 ∨ op = 4#3 := by
  revert op
  decide

theorem frameParse_append {comp : CompressionType} {q line : List Byte} {k : Nat} (z : List Byte)
    (h : frameParse comp q = .ok (k, line)) : frameParse comp (q ++ z) = .ok (k, line) := by
  cases hd : decodeFrame q with
  | error e => simp [frameParse, hd] at h
  | ok r =>
    obtain ⟨hi, -, happ⟩ := decodeFrame_ok hd
    rw [frameParse_of_decoded hi (happ z), ← frameParse_of_decoded hi hd, h]

theorem recParse_append {q d : List Byte} {k : Nat} (z : List Byte) (h : recParse q = .ok (k, d)) :
    recParse (q ++ z) = .ok (k, d) := by
  cases hd : decodeRun q with
  | error e => simp [recParse, hd] at h
  | ok r =>
    obtain ⟨hi, -, happ⟩ := decodeRun_ok hd
    rw [recParse_of_decoded .raw hi (happ z), ← recParse_of_decoded .raw hi hd, h]

/-- A unit once decided is not changed by the bytes behind it. -/
theorem jobUnit_append {op : BitVec 3} {comp : CompressionType} {q out : List Byte} {k : Nat} (z : List Byte)
    (hlook : lookAhead op ≤ q.length) (h : jobUnit op comp q = .ok (k, out)) : jobUnit op comp (q ++ z) = .ok (k, out) := by
  by_cases h1 : op = 1#3
  · simp only [lookAhead, if_pos h1] at hlook
    have hmin : min 16 (q ++ z).length = min 16 q.length := by
      rw [List.length_append]
      omega
    simp only [jobUnit, if_pos h1, hmin, List.take_append_of_le_length hlook] at h ⊢
    exact h
  by_cases h2 : op = 2#3
  · simp only [jobUnit, if_neg h1, if_pos h2] at h ⊢
    exact frameParse_append z h
  by_cases h3 : op = 3#3
  · simp only [lookAhead, if_neg h1, if_pos h3] at hlook
    simp only [jobUnit, if_neg h1, if_neg h2, if_pos h3, firstRun_append z hlook] at h ⊢
    exact h
  · simp only [jobUnit, if_neg h1, if_neg h2, if_neg h3] at h ⊢
    exact recParse_append z h

theorem firstRun_le_length (q : List Byte) : (firstRun q).1 ≤ q.length := by
  cases q with
  | nil => exact Nat.le_refl _
  | cons b xs => exact (firstRun_consumes b xs).2.2

/-- A unit lies within the bytes it is read from. -/
theorem jobUnit_le_length {op : BitVec 3} {comp : CompressionType} {q out : List Byte} {k : Nat}
    (h : jobUnit op comp q = .ok (k, out)) : k ≤ q.length := by
  simp only [jobUnit] at h
  split at h
  · cases h
    exact Nat.min_le_right _ _
  · split at h
    · exact (frameParse_consumes h).2.1
    · split at h
      · cases h
        exact firstRun_le_length q
      · exact (recParse_consumes h).2

/-! ## The engine's step as the unit at the head of the window -/

/-- What the engine does with a unit: a unit step, or the fault step of its error. -/
def State.perform (s : State) (r : Except ErrKind (Nat × List Byte)) : StepOutcome :=
  match r with
  | .ok (k, out) => .next (s.unitStep k out)
  | .error K => faultStep s K

/-- The job's next unit, read from the queued part of its input. -/
def State.headUnit (s : State) : Except ErrKind (Nat × List Byte) := jobUnit s.op s.comp s.window

/-- The completion step is enabled (R135). -/
def State.completes (s : State) : Prop := s.st = .busy ∧ s.inPos = s.inLen

/-- A running job has input left, and what is queued of it decides the next unit, or is all there is. -/
structure State.UnitDue (s : State) : Prop where
  running : s.st = .busy
  cursor : s.inPos ≠ s.inLen
  input : 1 ≤ s.rem
  operation : 1 ≤ s.op.toNat ∧ s.op.toNat ≤ 4
  look : min (lookAhead s.op) s.rem ≤ s.ready

theorem decodeUnit_eq_perform {s : State} {op : BitVec 3} {k : Nat} {r : Except ErrKind (List Byte)} (hb : s.st = .busy)
    (ho : s.op = op) (hk : k ≤ s.ready) : decodeUnit s op k r = s.perform (r.map fun out => (k, out)) := by
  cases r with
  | ok out => exact decodeUnit_ok out hb ho hk
  | error K => exact decodeUnit_error K hb ho hk

theorem decXferStep_eq_perform {s : State} (hb : s.st = .busy) (ho : s.op = 2#3) :
    decXferStep s = s.perform (frameParse s.comp s.window) := by
  cases hd : decodeFrame s.window with
  | error e => simp only [decXferStep, frameParse, hd, State.perform]
  | ok r =>
    obtain ⟨hi, hle, -⟩ := decodeFrame_ok hd
    rw [window_length] at hle
    rw [decXferStep_of_decoded hd, exec_frame hi, decodeUnit_eq_perform hb ho hle, frameParse_of_decoded hi hd]

theorem rleDecStep_eq_perform {s : State} (hb : s.st = .busy) (ho : s.op = 4#3) :
    rleDecStep s = s.perform (recParse s.window) := by
  cases hd : decodeRun s.window with
  | error e => simp only [rleDecStep, recParse, hd, State.perform]
  | ok r =>
    obtain ⟨hi, hle, -⟩ := decodeRun_ok hd
    rw [window_length] at hle
    rw [rleDecStep_of_decoded hd, exec_run hi, decodeUnit_eq_perform hb ho hle, recParse_of_decoded s.comp hi hd]

theorem encXferUnit_of_le {s : State} (h : min 16 s.rem ≤ s.inAvail) :
    encXferUnit s = .next (s.unitStep (min 16 s.window.length) (frameEncode (padLine (s.window.take 16)) s.comp)) := by
  have hmin : min 16 s.ready = min 16 s.rem := by
    simp only [State.ready]
    omega
  rw [window_length, State.window, State.inPeek, List.take_take, hmin]
  exact if_pos h

/-- The look-ahead of R141 and the whole window have the same first run. -/
theorem firstRun_inPeek {s : State} (h : min s.rem 129 ≤ s.inAvail) :
    firstRun (s.inPeek (min s.rem 129)) = firstRun s.window := by
  have hpeek : s.inPeek (min s.rem 129) = s.window.take 129 := by
    rw [State.window, State.inPeek, State.inPeek, List.take_take, State.ready]
    congr 1
    omega
  rw [hpeek]
  by_cases hlen : 129 ≤ s.window.length
  · have happ := firstRun_append (q := s.window.take 129) (s.window.drop 129) (by rw [List.length_take]; omega)
    rw [List.take_append_drop] at happ
    exact happ.symm
  · rw [List.take_of_length_le (by omega)]

theorem rleEncUnit_of_le {s : State} (h : min s.rem 129 ≤ s.inAvail) :
    rleEncUnit s = .next (s.unitStep (firstRun s.window).1 (streamBytes (firstRun s.window).2)) := by
  rw [← firstRun_inPeek h]
  exact if_pos h

theorem engineStep_of_completes {s : State} (h : s.completes) : engineStep s = .next s.complete := by
  simp only [engineStep, if_pos h.1, if_pos h.2]

/-- Where a unit is due the engine's turn performs it (R136, R138, R141, R143). -/
theorem engineStep_of_unitDue {s : State} (h : s.UnitDue) : engineStep s = s.perform s.headUnit := by
  have hz : s.rem ≠ 0 := Nat.ne_of_gt h.input
  have hlook := h.look
  have havail := ready_le_inAvail s
  simp only [engineStep, if_pos h.running, if_neg h.cursor, if_neg hz, State.headUnit, jobUnit]
  rcases jobOp_cases h.operation with ho | ho | ho | ho <;>
    simp only [ho, lookAhead, BitVec.reduceEq, if_true, if_false] at hlook ⊢
  · exact encXferUnit_of_le (by omega)
  · exact decXferStep_eq_perform h.running ho
  · exact rleEncUnit_of_le (by omega)
  · exact rleDecStep_eq_perform h.running ho

/-- Otherwise the engine holds (R52). -/
theorem engineStep_of_not {s : State} (hc : ¬ s.completes) (hu : ¬ s.UnitDue) : engineStep s = .next s := by
  by_cases hb : s.st = .busy
  swap
  · exact if_neg hb
  have hp : s.inPos ≠ s.inLen := fun hp => hc ⟨hb, hp⟩
  by_cases hz : s.rem = 0
  · simp only [engineStep, if_pos hb, if_neg hp, if_pos hz]
  simp only [engineStep, if_pos hb, if_neg hp, if_neg hz]
  by_cases hop : 1 ≤ s.op.toNat ∧ s.op.toNat ≤ 4
  · have hlook : ¬ min (lookAhead s.op) s.rem ≤ min s.inAvail s.rem := fun hl => hu ⟨hb, hp, by omega, hop, hl⟩
    rcases jobOp_cases hop with ho | ho | ho | ho <;>
      simp only [ho, lookAhead, BitVec.reduceEq, if_true, if_false] at hlook ⊢
    · exact if_neg (by omega)
    · omega
    · exact if_neg (by omega)
    · omega
  · have hne : s.op ≠ 1#3 ∧ s.op ≠ 2#3 ∧ s.op ≠ 3#3 ∧ s.op ≠ 4#3 := by
      refine ⟨?_, ?_, ?_, ?_⟩ <;> exact fun ho => hop (by rw [ho]; decide)
    obtain ⟨h1, h2, h3, h4⟩ := hne
    simp only [if_neg h1, if_neg h2, if_neg h3, if_neg h4]

/-! ## Bytes pushed behind the window -/

theorem window_eq_take_rem (s : State) : s.window = s.inq.take s.rem := by
  rw [List.take_eq_take_min, Nat.min_comm]
  rfl

theorem rem_le_length_of_ready {s : State} (h : s.ready = s.rem) : s.rem ≤ s.inq.length := h ▸ ready_le_inAvail s

/-- With all the job's input queued, no further byte is the job's. -/
theorem take_rem_append_of_ready {s : State} (z : List Byte) (h : s.ready = s.rem) :
    (s.inq ++ z).take s.rem = s.window := by
  rw [List.take_append_of_le_length (rem_le_length_of_ready h), window_eq_take_rem]

/-- The unit the engine performs is the one at the head of all the job's input, whatever is still to be pushed. -/
theorem jobUnit_of_headUnit {s : State} (hu : s.UnitDue) {k : Nat} {out : List Byte} (z : List Byte)
    (h : s.headUnit = .ok (k, out)) : jobUnit s.op s.comp ((s.inq ++ z).take s.rem) = .ok (k, out) := by
  by_cases hr : s.ready = s.rem
  · rwa [take_rem_append_of_ready z hr]
  · have hlook := hu.look
    have hle := ready_le_rem s
    rw [List.take_append, ← window_eq_take_rem]
    exact jobUnit_append _ (by rw [window_length]; omega) h

theorem headUnit_le_ready {s : State} {k : Nat} {out : List Byte} (h : s.headUnit = .ok (k, out)) : k ≤ s.ready :=
  window_length s ▸ jobUnit_le_length h

/-- The state after `InPush(b)`. -/
def State.pushed (s : State) (b : Byte) : State := { s with inq := s.inq ++ [b] }

theorem State.UnitDue.pushed {s : State} (h : s.UnitDue) (b : Byte) : (s.pushed b).UnitDue := by
  refine ⟨h.running, h.cursor, h.input, h.operation, h.look.trans ?_⟩
  simp only [State.ready, State.inAvail, State.rem, State.pushed, List.length_append]
  omega

theorem pushed_window (s : State) (b : Byte) : (s.pushed b).window = (s.inq ++ [b]).take s.rem := window_eq_take_rem _

theorem pushed_unitStep (s : State) {k : Nat} (out : List Byte) (b : Byte) (h : k ≤ s.inq.length) :
    (s.pushed b).unitStep k out = (s.unitStep k out).pushed b := by
  simp only [State.unitStep, State.inPop, State.outPush, State.countUnit, State.pushed,
    List.drop_append_of_le_length h]

theorem pushed_faultEntry (s : State) (K : ErrKind) (b : Byte) (h : s.rem ≤ s.inq.length) :
    (s.pushed b).faultEntry K = (s.faultEntry K).pushed b := by
  simp only [State.faultEntry, State.inPop, State.rem, State.pushed] at h ⊢
  rw [List.drop_append_of_le_length h]

theorem pushed_faultStep (s : State) (K : ErrKind) (b : Byte) (h : s.ready = s.rem) :
    faultStep (s.pushed b) K = .next ((s.faultEntry K).pushed b) := by
  have hle := rem_le_length_of_ready h
  rw [← pushed_faultEntry s K b hle]
  refine if_pos (Nat.min_eq_right ?_)
  exact hle.trans (by simp [State.inAvail, State.pushed])

/-- A unit step, a fault step or the completion step that is enabled is the same one after a push (R52). -/
theorem engineStep_pushed {s t : State} (b : Byte) (h : engineStep s = .next t) (hne : t ≠ s) :
    engineStep (s.pushed b) = .next (t.pushed b) := by
  by_cases hc : s.completes
  · rw [engineStep_of_completes hc] at h
    cases h
    exact engineStep_of_completes hc
  by_cases hu : s.UnitDue
  swap
  · rw [engineStep_of_not hc hu] at h
    cases h
    exact absurd rfl hne
  rw [engineStep_of_unitDue hu] at h
  rw [engineStep_of_unitDue (hu.pushed b)]
  cases hd : s.headUnit with
  | ok r =>
    obtain ⟨k, out⟩ := r
    have hd' : (s.pushed b).headUnit = .ok (k, out) := by
      rw [State.headUnit, pushed_window]
      exact jobUnit_of_headUnit hu [b] hd
    rw [hd] at h
    cases h
    rw [hd', State.perform, pushed_unitStep s out b ((headUnit_le_ready hd).trans (ready_le_inAvail s))]
  | error K =>
    rw [hd] at h
    rcases faultStep_cases h with ⟨-, rfl⟩ | ⟨hr, rfl⟩
    · exact absurd rfl hne
    have hd' : (s.pushed b).headUnit = .error K := by
      rw [State.headUnit, pushed_window, take_rem_append_of_ready [b] hr]
      exact hd
    rw [hd']
    exact pushed_faultStep s K b hr

/-! ## Bytes popped behind the engine -/

/-- The state after an `OutPop()` that delivers `b`. -/
def State.popped (s : State) (b : Byte) : State := { s with outq := s.outq.tail, seen := s.seen ++ [.byte b] }

theorem hostPop_of_cons {s : State} {b : Byte} {rest : List Byte} (h : s.outq = b :: rest) :
    hostPop s = .next (s.popped b) := by
  simp only [hostPop, State.popped, h, List.tail_cons]

theorem State.UnitDue.popped {s : State} (b : Byte) (h : s.UnitDue) : (s.popped b).UnitDue :=
  ⟨h.running, h.cursor, h.input, h.operation, h.look⟩

theorem State.UnitDue.of_popped {s : State} {b : Byte} (h : (s.popped b).UnitDue) : s.UnitDue :=
  ⟨h.running, h.cursor, h.input, h.operation, h.look⟩

theorem popped_unitStep {s : State} {b : Byte} {rest : List Byte} (h : s.outq = b :: rest) (k : Nat) (out : List Byte) :
    hostPop (s.unitStep k out) = .next ((s.popped b).unitStep k out) := by
  have hq : (s.unitStep k out).outq = b :: (rest ++ out) := by rw [State.unitStep_outq, h, List.cons_append]
  rw [hostPop_of_cons hq]
  simp only [State.unitStep, State.inPop, State.outPush, State.countUnit, State.popped, h, List.cons_append, List.tail_cons]

theorem popped_faultStep {s : State} {b : Byte} {rest : List Byte} (h : s.outq = b :: rest) (K : ErrKind) :
    faultStep (s.popped b) K = andThen (faultStep s K) hostPop := by
  by_cases hr : s.ready = s.rem
  · have hl : faultStep (s.popped b) K = .next ((s.popped b).faultEntry K) := if_pos hr
    have hs : faultStep s K = .next (s.faultEntry K) := if_pos hr
    have hq : (s.faultEntry K).outq = b :: rest := h
    rw [hl, hs, andThen, hostPop_of_cons hq]
    rfl
  · have hl : faultStep (s.popped b) K = .next (s.popped b) := if_neg hr
    have hs : faultStep s K = .next s := if_neg hr
    rw [hl, hs, andThen, hostPop_of_cons h]

/-- The engine reads nothing of OUT and appends behind what a pop takes (R53). -/
theorem engineStep_popped {s : State} {b : Byte} {rest : List Byte} (h : s.outq = b :: rest) :
    engineStep (s.popped b) = andThen (engineStep s) hostPop := by
  by_cases hc : s.completes
  · have hc' : (s.popped b).completes := hc
    have hq : s.complete.outq = b :: rest := h
    rw [engineStep_of_completes hc, engineStep_of_completes hc', andThen, hostPop_of_cons hq]
    rfl
  by_cases hu : s.UnitDue
  · have hd : (s.popped b).headUnit = s.headUnit := rfl
    rw [engineStep_of_unitDue hu, engineStep_of_unitDue (hu.popped b), hd]
    cases s.headUnit with
    | ok r => exact (popped_unitStep h r.1 r.2).symm
    | error K => exact popped_faultStep h K
  · have hc' : ¬ (s.popped b).completes := hc
    rw [engineStep_of_not hc hu, engineStep_of_not hc' fun hu' => hu hu'.of_popped, andThen, hostPop_of_cons h]

/-! ## The statements about one step -/

/-- Settles O43: a push adds bytes behind those that decided the step, a pop takes one before those the step appends. -/
theorem engineCommutesWithStreams : Obligations.EngineCommutesWithStreams := by
  refine ⟨fun s t b h hne => engineStep_pushed b h hne, fun s h => ?_⟩
  obtain ⟨b, rest, hq⟩ := List.exists_cons_of_ne_nil h
  rw [hostPop_of_cons hq, andThen, engineStep_popped hq]

/-- Settles O34: a frame or record is a unit of its own bytes, which is performed, faults or is left alone. -/
theorem unitInstrFrame : Obligations.UnitInstrFrame := by
  intro i s t hi h
  have hunit : ∃ op, exec i s = decodeUnit s op (streamBytes i).length (unitOutput s.comp i) :=
    hi.elim (fun hf => ⟨_, exec_frame hf s⟩) fun hr => ⟨_, exec_run hr s⟩
  obtain ⟨op, hop⟩ := hunit
  rw [hop] at h
  rcases decodeUnit_cases h with rfl | ⟨hb, -, -, ⟨out, -, rfl⟩ | ⟨K, -, -, rfl⟩⟩
  · exact ⟨rfl, rfl, rfl, rfl, rfl, .inl rfl⟩
  · refine ⟨rfl, rfl, rfl, rfl, rfl, .inr (.inl ⟨hb, rfl, rfl, rfl, rfl, rfl, rfl, List.take_left, ?_⟩)⟩
    simp
  · exact ⟨rfl, rfl, rfl, rfl, rfl, .inr (.inr ⟨rfl, rfl, rfl, rfl, rfl, rfl, rfl, rfl⟩)⟩

/-- Settles O45, from the engine's four moves. -/
theorem engineFrame : Obligations.EngineFrame := by
  intro s t h
  cases engineStep_move h with
  | stay => exact ⟨rfl, rfl, rfl, rfl, rfl, ⟨0, by simp⟩, by simp, by simp⟩
  | complete hb hp => exact ⟨rfl, rfl, rfl, rfl, rfl, ⟨0, by simp⟩, by simp, by simp⟩
  | unit hb hp k out hk hr => exact ⟨rfl, rfl, rfl, rfl, rfl, ⟨k, hr, rfl, rfl⟩, List.take_left, by simp⟩
  | fault hb hp K hr hpos => exact ⟨rfl, rfl, rfl, rfl, rfl, ⟨s.rem, hr.ge, rfl, rfl⟩, by simp, by simp⟩

/-! ## The result of a job, unit by unit -/

/-- What a loop has in the end when its first unit took `k` bytes and gave `out`. -/
def LoopEnd.afterUnit (r : LoopEnd) (k : Nat) (out : List Byte) : LoopEnd := ⟨out ++ r.out, r.units + 1, r.pos + k, r.err⟩

theorem encodeTransfer_cons (b : Byte) (xs : List Byte) (comp : CompressionType) :
    encodeTransfer (b :: xs) comp =
      frameEncode (padLine ((b :: xs).take 16)) comp ++ encodeTransfer ((b :: xs).drop 16) comp := by
  simp only [encodeTransfer, encodeTransferWith, lineSplit_cons, List.flatMap_cons, frameEncode]

theorem rleEncode_cons (b : Byte) (xs : List Byte) :
    rleEncode (b :: xs) = streamBytes (firstRun (b :: xs)).2 ++ rleEncode ((b :: xs).drop (firstRun (b :: xs)).1) := by
  simp only [rleEncode, rleRecords_cons, List.flatMap_cons]

theorem jobResult_nil (op : BitVec 3) (comp : CompressionType) : jobResult op comp [] = ⟨[], 0, 0, none⟩ := by
  simp only [jobResult]
  split
  · rfl
  · split
    · rfl
    · split <;> rfl

/-- R137, R140, R142, R146: a job's result is its first unit and the result of the rest. -/
theorem jobResult_of_unit {op : BitVec 3} {comp : CompressionType} {x out : List Byte} {k : Nat} (hx : x ≠ [])
    (h : jobUnit op comp x = .ok (k, out)) : jobResult op comp x = (jobResult op comp (x.drop k)).afterUnit k out := by
  obtain ⟨b, xs, rfl⟩ := List.exists_cons_of_ne_nil hx
  by_cases h1 : op = 1#3
  · simp only [jobUnit, if_pos h1] at h
    cases h
    simp only [jobResult, if_pos h1, LoopEnd.afterUnit, encodeTransfer_cons, List.length_drop, ← List.drop_eq_drop_min]
    congr 1 <;> simp only [List.length_cons] <;> omega
  by_cases h2 : op = 2#3
  · simp only [jobUnit, if_neg h1, if_pos h2] at h
    simp only [jobResult, if_neg h1, if_pos h2]
    exact transferLoop_ok h
  by_cases h3 : op = 3#3
  · simp only [jobUnit, if_neg h1, if_neg h2, if_pos h3] at h
    cases h
    have hle := firstRun_le_length (b :: xs)
    simp only [jobResult, if_neg h1, if_neg h2, if_pos h3, LoopEnd.afterUnit, ← rleEncode_cons, List.length_drop,
      Nat.sub_add_cancel hle]
    rw [rleRecords_cons, List.length_cons]
  · simp only [jobUnit, if_neg h1, if_neg h2, if_neg h3] at h
    simp only [jobResult, if_neg h1, if_neg h2, if_neg h3]
    exact rleLoop_ok h

/-- R140, R146: a unit in error ends the job where it stands. -/
theorem jobResult_of_error {op : BitVec 3} {comp : CompressionType} {x : List Byte} {K : ErrKind} (hx : x ≠ [])
    (h : jobUnit op comp x = .error K) : jobResult op comp x = ⟨[], 0, 0, some K⟩ := by
  obtain ⟨b, xs, rfl⟩ := List.exists_cons_of_ne_nil hx
  simp only [jobUnit] at h
  simp only [jobResult]
  split at h
  · cases h
  next h1 =>
    rw [if_neg h1]
    split at h
    next h2 =>
      rw [if_pos h2]
      exact transferLoop_error h
    next h2 =>
      rw [if_neg h2]
      split at h
      · cases h
      next h3 =>
        rw [if_neg h3]
        exact rleLoop_error h

/-! ## The outcome of a job -/

/-- How a running job ends when `r` comes of the rest of its input (R146, R148). -/
def State.settled (s : State) (r : LoopEnd) : State :=
  { s with
    st := .done
    inPos := s.inLen
    inq := s.inq.drop s.rem
    outq := s.outq ++ r.out
    outLen := s.outLen + BitVec.ofNat 32 r.out.length
    unitCnt := s.unitCnt + BitVec.ofNat 32 r.units
    err := r.err.isSome
    errCode := (r.err.map errCodeOf).getD 0#4
    errPos := if r.err.isSome = true then s.inPos + BitVec.ofNat 32 r.pos else 0#32 }

/-- The state a running job ends in when no more is pushed or popped; any other state is its own outcome. -/
def State.outcome (s : State) : State :=
  if s.st = .busy then s.settled (jobResult s.op s.comp (s.inq.take s.rem)) else s

theorem outcome_busy {s : State} (h : s.st = .busy) :
    s.outcome = s.settled (jobResult s.op s.comp (s.inq.take s.rem)) := if_pos h

theorem outcome_free {s : State} (h : s.st ≠ .busy) : s.outcome = s := if_neg h

theorem unitStep_rem (s : State) {k : Nat} (out : List Byte) (h : k ≤ s.rem) : (s.unitStep k out).rem = s.rem - k := by
  simp only [State.rem, State.unitStep_inPos, State.unitStep_inLen, inPos_add_toNat s k h]
  omega

theorem StateInv.err_of_busy {s : State} (hi : StateInv s) (hb : s.st = .busy) : s.err = false := by
  by_contra he
  rw [Bool.not_eq_false] at he
  exact absurd (hb.symm.trans (hi.faulted he).1) (by decide)

theorem settled_complete {s : State} (hi : StateInv s) (hb : s.st = .busy) (hp : s.inPos = s.inLen) :
    s.settled ⟨[], 0, 0, none⟩ = s.complete := by
  have herr := hi.err_of_busy hb
  obtain ⟨hcode, hpos⟩ := hi.clean herr
  have hrem : s.rem = 0 := by simp only [State.rem, hp, Nat.sub_self]
  simp [State.settled, State.complete, hrem, hp, herr, hcode, hpos]

theorem settled_fault {s : State} (hi : StateInv s) (hb : s.st = .busy) (K : ErrKind) :
    s.settled ⟨[], 0, 0, some K⟩ = s.faultEntry K := by
  simp only [State.settled, State.faultEntry, State.inPop, inPos_drain s (hi.cursor hb), List.append_nil, List.length_nil,
    BitVec.add_zero, Option.isSome_some, Option.map_some, Option.getD_some, if_true]

/-- The first unit of the rest may be performed now or counted in the end. -/
theorem settled_afterUnit {s : State} (r : LoopEnd) {k : Nat} (out : List Byte) (hk : k ≤ s.rem) :
    s.settled (r.afterUnit k out) = (s.unitStep k out).settled r := by
  have hsub : k + (s.rem - k) = s.rem := by omega
  have hcnt : BitVec.ofNat 32 (r.units + 1) = 1#32 + BitVec.ofNat 32 r.units := by
    rw [BitVec.ofNat_add, BitVec.add_comm]
  have hpos : BitVec.ofNat 32 (r.pos + k) = BitVec.ofNat 32 k + BitVec.ofNat 32 r.pos := by
    rw [BitVec.ofNat_add, BitVec.add_comm]
  rw [State.settled, State.settled, unitStep_rem s out hk]
  simp only [LoopEnd.afterUnit, State.unitStep_inq, State.unitStep_inLen, State.unitStep_inPos, State.unitStep_outq,
    State.unitStep_outLen, State.unitStep_unitCnt, State.unitStep_op, State.unitStep_comp, State.unitStep_turns,
    State.unitStep_seen, List.drop_drop, hsub, hcnt, hpos, List.length_append, BitVec.ofNat_add, BitVec.add_assoc,
    List.append_assoc]

/-- R135: the completion step is the outcome when no input is left. -/
theorem outcome_of_completes {s : State} (hi : StateInv s) (h : s.completes) : s.outcome = s.complete := by
  have hrem : s.rem = 0 := by simp only [State.rem, h.2, Nat.sub_self]
  rw [outcome_busy h.1, hrem, List.take_zero, jobResult_nil, settled_complete hi h.1 h.2]

/-- A unit step does not change the outcome. -/
theorem outcome_unitStep {s : State} {k : Nat} {out : List Byte} (hb : s.st = .busy) (hne : s.inq.take s.rem ≠ [])
    (h : jobUnit s.op s.comp (s.inq.take s.rem) = .ok (k, out)) : (s.unitStep k out).outcome = s.outcome := by
  have hk : k ≤ s.rem := (jobUnit_le_length h).trans (List.length_take_le _ _)
  have hb' : (s.unitStep k out).st = .busy := hb
  rw [outcome_busy hb, outcome_busy hb', jobResult_of_unit hne h, settled_afterUnit _ out hk, unitStep_rem s out hk,
    List.drop_take]
  rfl

/-- R139, R144: the fault step is the outcome when the input left begins with a unit in error. -/
theorem outcome_of_error {s : State} {K : ErrKind} (hi : StateInv s) (hb : s.st = .busy) (hne : s.inq.take s.rem ≠ [])
    (h : jobUnit s.op s.comp (s.inq.take s.rem) = .error K) : s.outcome = s.faultEntry K := by
  rw [outcome_busy hb, jobResult_of_error hne h, settled_fault hi hb]

/-! ## The outcome is the same whenever the host moves (R62) -/

/-- The host's side of the streams gathered in the queues: all it will still push is pushed, all it has popped is back in OUT. -/
def State.gathered (s : State) : State :=
  { s with inq := s.inq ++ pushedBytes s.turns, outq := poppedBytes s.seen ++ s.outq, turns := [], seen := [] }

/-- What there will be in the end: no quiet turn changes it, be it the host's or the engine's. -/
def State.outlook (s : State) : State := s.gathered.outcome

theorem gathered_unitStep (s : State) {k : Nat} (out : List Byte) (h : k ≤ s.inq.length) :
    (s.unitStep k out).gathered = s.gathered.unitStep k out := by
  simp only [State.gathered, State.unitStep, State.inPop, State.outPush, State.countUnit,
    List.drop_append_of_le_length h, List.append_assoc]

theorem gathered_faultEntry (s : State) (K : ErrKind) (h : s.rem ≤ s.inq.length) :
    (s.faultEntry K).gathered = s.gathered.faultEntry K := by
  simp only [State.gathered, State.faultEntry, State.inPop, State.rem] at h ⊢
  rw [List.drop_append_of_le_length h]

theorem outlook_of_gathered {s t : State} (h : t.gathered = s.gathered) : t.outlook = s.outlook :=
  congrArg State.outcome h

/-- A unit that is performed has bytes queued. -/
theorem ready_pos_of_headUnit {s : State} {k : Nat} {out : List Byte} (hu : s.UnitDue) (h : s.headUnit = .ok (k, out)) :
    1 ≤ s.ready := by
  have hk := headUnit_le_ready h
  have hlook := hu.look
  have hin := hu.input
  rw [State.headUnit] at h
  rcases jobOp_cases hu.operation with ho | ho | ho | ho <;>
    simp only [ho, lookAhead, jobUnit, BitVec.reduceEq, if_true, if_false] at hlook h
  · omega
  · exact (frameParse_pos _ _ _ _ h).trans hk
  · omega
  · exact (recParse_pos _ _ _ h).trans hk

theorem gathered_input_ne_nil {s : State} (h : 1 ≤ s.ready) : s.gathered.inq.take s.gathered.rem ≠ [] := by
  have hlen : 1 ≤ min s.inq.length s.rem := h
  have hrem : s.gathered.rem = s.rem := rfl
  rw [← List.length_pos_iff, List.length_take, hrem, State.gathered, List.length_append]
  omega

theorem StateInv.gathered {s : State} (h : StateInv s) : StateInv s.gathered := h.withQueues _ _ _ _

/-- A turn of the engine does only what was to come anyway. -/
theorem engineStep_outlook {s t : State} (hi : StateInv s) (h : engineStep s = .next t) : t.outlook = s.outlook := by
  by_cases hc : s.completes
  · rw [engineStep_of_completes hc] at h
    cases h
    have hc' : s.gathered.completes := hc
    rw [State.outlook, State.outlook, outcome_of_completes hi.gathered hc']
    exact outcome_free (by simp [State.gathered])
  by_cases hu : s.UnitDue
  swap
  · rw [engineStep_of_not hc hu] at h
    cases h
    rfl
  have hb : s.gathered.st = .busy := hu.running
  rw [engineStep_of_unitDue hu] at h
  cases hd : s.headUnit with
  | ok r =>
    obtain ⟨k, out⟩ := r
    rw [hd] at h
    cases h
    rw [State.outlook, gathered_unitStep s out ((headUnit_le_ready hd).trans (ready_le_inAvail s))]
    exact outcome_unitStep hb (gathered_input_ne_nil (ready_pos_of_headUnit hu hd)) (jobUnit_of_headUnit hu _ hd)
  | error K =>
    rw [hd] at h
    rcases faultStep_cases h with ⟨-, rfl⟩ | ⟨hr, rfl⟩
    · rfl
    have hunit : jobUnit s.gathered.op s.gathered.comp (s.gathered.inq.take s.gathered.rem) = .error K := by
      rw [← hd, State.headUnit, ← take_rem_append_of_ready (pushedBytes s.turns) hr]
      rfl
    rw [State.outlook, State.outlook, gathered_faultEntry s K (rem_le_length_of_ready hr),
      outcome_of_error hi.gathered hb (gathered_input_ne_nil (hr ▸ hu.input)) hunit]
    exact outcome_free (by simp)

/-! ### Quiet turns of the host -/

theorem poppedBytes_append (xs ys : List Seen) : poppedBytes (xs ++ ys) = poppedBytes xs ++ poppedBytes ys := by
  induction xs with
  | nil => rfl
  | cons x xs ih =>
    cases x with
    | word off v => exact ih
    | byte b => exact congrArg (b :: ·) ih

theorem gathered_told_word (s : State) (off : Nat) (v : Word) :
    State.gathered { s with seen := s.seen ++ [.word off v] } = s.gathered := by
  simp only [State.gathered, poppedBytes_append, poppedBytes, List.append_nil]

theorem gathered_popped {s : State} {b : Byte} {rest : List Byte} (h : s.outq = b :: rest) :
    (s.popped b).gathered = s.gathered := by
  simp only [State.gathered, State.popped, poppedBytes_append, poppedBytes, h, List.tail_cons, List.append_assoc,
    List.cons_append, List.nil_append]

theorem gathered_hostPop {s t : State} (h : hostPop s = .next t) : t.gathered = s.gathered := by
  cases hq : s.outq with
  | nil =>
    simp only [hostPop, hq, Host.Outcome.next.injEq] at h
    rw [h]
  | cons b rest =>
    rw [hostPop_of_cons hq] at h
    cases h
    exact gathered_popped hq

theorem gathered_takeTurn_of_engine {s : State} (h : s.nextTurn = .engine) : s.takeTurn.gathered = s.gathered := by
  have hp : pushedBytes s.turns.tail = pushedBytes s.turns := by
    cases ht : s.turns with
    | nil => rfl
    | cons x ts =>
      simp only [State.nextTurn, ht, List.headD_cons] at h
      rw [h]
      rfl
  simp only [State.gathered, State.takeTurn, hp]

theorem turns_of_host {s : State} {a : HostAction} (h : s.nextTurn = .host a) : s.turns = .host a :: s.turns.tail := by
  cases ht : s.turns with
  | nil => simp [State.nextTurn, ht] at h
  | cons x ts =>
    simp only [State.nextTurn, ht, List.headD_cons] at h
    rw [h, List.tail_cons]

theorem gathered_of_host {s : State} {a : HostAction} (h : s.nextTurn = .host a) :
    s.gathered = { s.takeTurn.gathered with inq := s.inq ++ pushedBytes (.host a :: s.turns.tail) } := by
  rw [← turns_of_host h]
  rfl

/-- A quiet turn of the host moves bytes between places that are gathered alike. -/
theorem hostStep_gathered {s t : State} {a : HostAction} (ha : quietTurn (.host a) = true) (hn : s.nextTurn = .host a)
    (h : hostStep a s.takeTurn = .next t) : t.gathered = s.gathered := by
  rw [gathered_of_host hn]
  cases a with
  | readReg width off =>
    cases width with
    | byte => cases ha
    | half => cases ha
    | word =>
      rw [hostStep_read_aligned _ (of_decide_eq_true ha)] at h
      cases h
      exact gathered_told_word s.takeTurn off _
  | writeReg width off val => cases ha
  | inPush b =>
    cases h
    simp only [State.gathered, State.takeTurn_inq, List.append_assoc]
    rfl
  | outPop => exact gathered_hostPop h
  | rst => cases ha

/-! ### Runs -/

/-- A step takes the next turn off, and no move gives one. -/
theorem step_turns {s t : State} (h : step s = .next t) : t.turns = s.turns.tail := by
  rcases step_cases h with ⟨-, hm⟩ | ⟨a, -, hm⟩
  · cases hm <;> rfl
  · cases hm with
    | command t h => cases h <;> rfl
    | _ => rfl

/-- What every step of a run from `s` under quiet turns keeps: R40's invariants, quiet turns to come, and the outlook. -/
structure Underway (s t : State) : Prop where
  inv : StateInv t
  quiet : ∀ x ∈ t.turns, quietTurn x = true
  outlook : t.outlook = s.outlook

theorem Underway.step {s t u : State} (h : Underway s t) (hs : step t = .next u) : Underway s u where
  inv := stepKeepsInvariant t u h.inv hs
  quiet x hx := h.quiet x (List.mem_of_mem_tail (step_turns hs ▸ hx))
  outlook := by
    rw [← h.outlook]
    cases hn : t.nextTurn with
    | engine =>
      rw [step_of_engine hn] at hs
      rw [engineStep_outlook h.inv.takeTurn hs]
      exact outlook_of_gathered (gathered_takeTurn_of_engine hn)
    | host a =>
      rw [step_of_host hn] at hs
      have ha : quietTurn (.host a) = true := h.quiet _ (turns_of_host hn ▸ List.mem_cons_self)
      exact outlook_of_gathered (hostStep_gathered ha hn hs)

/-- What every step keeps a run keeps. -/
theorem run_keeps {P : State → Prop} (hstep : ∀ s t, P s → step s = .next t → P t) {k : Nat} {s t : State} (hs : P s)
    (h : Sys2Proof.core.run k s = .next t) : P t := by
  induction k generalizing s with
  | zero =>
    cases h
    exact hs
  | succ k ih =>
    simp only [Host.Core.run] at h
    split at h
    next s' hs' => exact ih (hstep s s' hs hs') h
    next => cases h
    next => cases h

theorem FreshJob.inv {s : State} {op : BitVec 3} (h : FreshJob s op) (hop : 1 ≤ op.toNat ∧ op.toNat ≤ 4) : StateInv s where
  cursor _ := by simp [h.cursor]
  idle hi := absurd (h.running.symm.trans hi) (by decide)
  idleCommand hi := absurd (h.running.symm.trans hi) (by decide)
  faulted he := absurd (h.noErr.symm.trans he) (by decide)
  clean _ := ⟨h.noErrCode, h.noErrPos⟩
  operation _ := h.operation ▸ hop
  units := by simp [h.noUnits]

/-- The outlook of a job just started is the result of its operation on its first `IN_LEN` bytes (R146). -/
theorem FreshJob.outlook {s : State} {op : BitVec 3} (h : FreshJob s op) :
    s.outlook =
      s.gathered.settled (jobResult op s.comp ((s.inq ++ pushedBytes s.turns).take s.inLen.toNat)) := by
  have hb : s.gathered.st = .busy := h.running
  have hrem : s.gathered.rem = s.inLen.toNat := by simp [State.gathered, State.rem, h.cursor]
  rw [State.outlook, outcome_busy hb, hrem]
  simp only [State.gathered, h.operation]

/-- Settles O58: the outlook at the job's start is still the outlook when it has ended, and then is the state itself. -/
theorem jobResultOfAnyInterleaving : Obligations.JobResultOfAnyInterleaving := by
  intro s t op k r hf h1 h4 hq hr hrun hdone
  have hu : Underway s t := run_keeps (fun u v hu h => hu.step h) ⟨hf.inv ⟨h1, h4⟩, hq, rfl⟩ hrun
  have hend : t.gathered = s.gathered.settled r := by
    rw [hr, ← hf.outlook, ← hu.outlook]
    exact (outcome_free (by simp [State.gathered, hdone])).symm
  refine ⟨(congrArg State.inLen hend :), congrArg State.inPos hend, (congrArg State.op hend).trans hf.operation,
    (congrArg State.comp hend :), ?_, ?_, congrArg State.err hend, congrArg State.errCode hend, ?_,
    congrArg State.outq hend⟩
  · simpa [State.settled, State.gathered, hf.noOutput] using congrArg State.outLen hend
  · simpa [State.settled, State.gathered, hf.noUnits] using congrArg State.unitCnt hend
  · simpa [State.settled, State.gathered, hf.cursor] using congrArg State.errPos hend

end Sys2Proof.Machine

/-! # The family of 30_encoding.md: command words, frames and run records -/

namespace Sys2Proof.Machine

/-! ## Operands in range -/

theorem wellFormed_cmdIllegal_iff (w : Word) : wellFormed (.cmdIllegal w) = true ↔ w ∉ legalCommandWords := by
  simp [wellFormed]

theorem wellFormed_g_iff (p : List Byte) : wellFormed (.g p) = true ↔ p.length ≤ 65535 := decide_eq_true_iff

theorem wellFormed_frameReservedTag_iff (tag : Byte) :
    wellFormed (.frameReservedTag tag) = true ↔ tag ≠ 0x47#8 ∧ tag ≠ 0x5A#8 := by
  simp [wellFormed]

theorem wellFormed_lit_iff (d : List Byte) : wellFormed (.lit d) = true ↔ 1 ≤ d.length ∧ d.length ≤ 128 := by
  simp only [wellFormed, Bool.and_eq_true, decide_eq_true_eq]

theorem wellFormed_rep_iff (n : Nat) (b : Byte) : wellFormed (.rep n b) = true ↔ 2 ≤ n ∧ n ≤ 128 := by
  simp only [wellFormed, Bool.and_eq_true, decide_eq_true_eq]

/-! ## A frame, by its first byte (R75, R76, R77) -/

theorem decodeFrame_z (rest : List Byte) : decodeFrame (0x5A#8 :: rest) = .ok (.z, rest) := rfl

theorem decodeFrame_g {lo hi : Byte} {body : List Byte} (h : un16 lo hi ≤ body.length) :
    decodeFrame (0x47#8 :: lo :: hi :: body) = .ok (.g (body.take (un16 lo hi)), body.drop (un16 lo hi)) :=
  if_neg (Nat.not_lt.mpr h)

theorem decodeFrame_g_payloadCut {lo hi : Byte} {body : List Byte} (h : body.length < un16 lo hi) :
    decodeFrame (0x47#8 :: lo :: hi :: body) = .error .payloadCut := if_pos h

theorem decodeFrame_g_lengthCut {rest : List Byte} (h : rest.length < 2) :
    decodeFrame (0x47#8 :: rest) = .error .lengthCut := by
  rcases rest with _ | ⟨lo, _ | ⟨hi, body⟩⟩
  · rfl
  · rfl
  · simp only [List.length_cons] at h
    omega

theorem decodeFrame_reservedTag {tag : Byte} (rest : List Byte) (hg : tag ≠ 0x47#8) (hz : tag ≠ 0x5A#8) :
    decodeFrame (tag :: rest) = .ok (.frameReservedTag tag, rest) := by
  simp only [decodeFrame, if_neg hz, if_neg hg]

/-! ## A run record, by its control byte (R72, R73, R74) -/

theorem controlByte_cases (c : Byte) : c.toNat ≤ 127 ∨ c = 0x80#8 ∨ 129 ≤ c.toNat := by
  bv_omega

theorem decodeRun_lit {c : Byte} {rest : List Byte} (hc : c.toNat ≤ 127) (h : c.toNat + 1 ≤ rest.length) :
    decodeRun (c :: rest) = .ok (.lit (rest.take (c.toNat + 1)), rest.drop (c.toNat + 1)) := by
  simp only [decodeRun, if_pos hc, if_neg (Nat.not_lt.mpr h)]

theorem decodeRun_lit_cut {c : Byte} {rest : List Byte} (hc : c.toNat ≤ 127) (h : rest.length < c.toNat + 1) :
    decodeRun (c :: rest) = .error .dataCut := by
  simp only [decodeRun, if_pos hc, if_pos h]

theorem decodeRun_reserved (rest : List Byte) : decodeRun (0x80#8 :: rest) = .ok (.runReserved, rest) := rfl

theorem ne_reservedControl {c : Byte} (h : 129 ≤ c.toNat) : c ≠ 0x80#8 := by
  rintro rfl
  exact absurd h (by decide)

theorem decodeRun_rep {c : Byte} (hc : 129 ≤ c.toNat) (b : Byte) (rest : List Byte) :
    decodeRun (c :: b :: rest) = .ok (.rep (257 - c.toNat) b, rest) := by
  have hlit : ¬ c.toNat ≤ 127 := by omega
  simp only [decodeRun, if_neg hlit, if_neg (ne_reservedControl hc)]

theorem decodeRun_rep_cut {c : Byte} (hc : 129 ≤ c.toNat) : decodeRun [c] = .error .dataCut := by
  have hlit : ¬ c.toNat ≤ 127 := by omega
  simp only [decodeRun, if_neg hlit, if_neg (ne_reservedControl hc)]

/-! ## Decoding what was encoded -/

theorem decodeCmd_encXfer (comp : CompressionType) : decodeCmd (commandWord 1#3 comp) = .encXfer comp := by
  cases comp <;> decide

theorem decodeCmd_decXfer (comp : CompressionType) : decodeCmd (commandWord 2#3 comp) = .decXfer comp := by
  cases comp <;> decide

/-- The length field of a `G` frame counts its payload exactly (R75). -/
theorem decodeFrame_encoded_g {p : List Byte} (h : p.length ≤ 65535) :
    decodeFrame (0x47#8 :: le16 p.length ++ p) = .ok (.g p, []) := by
  have hlen := un16_le16 p.length h
  have hdec := decodeFrame_g (body := p) (Nat.le_of_eq hlen)
  rwa [hlen, List.take_length, List.drop_length] at hdec

/-- The control byte of a literal run counts its data exactly (R72). -/
theorem decodeRun_encoded_lit {d : List Byte} (h1 : 1 ≤ d.length) (h128 : d.length ≤ 128) :
    decodeRun (BitVec.ofNat 8 (d.length - 1) :: d) = .ok (.lit d, []) := by
  have hlen : (BitVec.ofNat 8 (d.length - 1)).toNat + 1 = d.length := by
    rw [litControl_toNat _ h128]
    omega
  have hdec := decodeRun_lit (c := BitVec.ofNat 8 (d.length - 1)) (rest := d) (by omega) (Nat.le_of_eq hlen)
  rwa [hlen, List.take_length, List.drop_length] at hdec

/-- The control byte of a repeat run is 257 less its copies (R73). -/
theorem decodeRun_encoded_rep {n : Nat} (h2 : 2 ≤ n) (h128 : n ≤ 128) (b : Byte) :
    decodeRun [BitVec.ofNat 8 (257 - n), b] = .ok (.rep n b, []) := by
  have hc := repControl_toNat n h2
  have hn : 257 - (257 - n) = n := by omega
  rw [decodeRun_rep (by omega), hc, hn]

/-- Settles O1, row by row. -/
theorem decodeEncodeEveryInstr : Obligations.DecodeEncodeEveryInstr := by
  intro i h
  cases i with
  | clr => rfl
  | encXfer comp => simp only [encode, decode, decodeCmd_encXfer]
  | decXfer comp => simp only [encode, decode, decodeCmd_decXfer]
  | rleEnc => rfl
  | rleDec => rfl
  | cmdIllegal w => simp only [encode, decode, decodeCmd_illegal ((wellFormed_cmdIllegal_iff w).mp h)]
  | g p => exact decodeFrame_encoded_g ((wellFormed_g_iff p).mp h)
  | z => rfl
  | frameReservedTag tag =>
    obtain ⟨hg, hz⟩ := (wellFormed_frameReservedTag_iff tag).mp h
    exact decodeFrame_reservedTag [] hg hz
  | lit d =>
    obtain ⟨h1, h128⟩ := (wellFormed_lit_iff d).mp h
    exact decodeRun_encoded_lit h1 h128
  | rep n b =>
    obtain ⟨h2, h128⟩ := (wellFormed_rep_iff n b).mp h
    exact decodeRun_encoded_rep h2 h128 b
  | runReserved => rfl

/-! ## Frames and records in a stream (R79) -/

theorem encode_frame {i : Instr} (hi : isFrame i = true) : encode i = .frame (streamBytes i) := by
  cases i with
  | g p => rfl
  | z => rfl
  | frameReservedTag tag => rfl
  | _ => cases hi

theorem encode_run {i : Instr} (hi : isRun i = true) : encode i = .run (streamBytes i) := by
  cases i with
  | lit d => rfl
  | rep n b => rfl
  | runReserved => rfl
  | _ => cases hi

/-- Settles O2: the unit's own bytes decode to it (O1), and bytes behind them do not matter. -/
theorem streamDecodeSelfDelimiting : Obligations.StreamDecodeSelfDelimiting := by
  intro i rest h
  have hdec := decodeEncodeEveryInstr i h
  constructor
  · intro hi
    rw [encode_frame hi] at hdec
    obtain ⟨-, -, happ⟩ := decodeFrame_ok hdec
    exact happ rest
  · intro hi
    rw [encode_run hi] at hdec
    obtain ⟨-, -, happ⟩ := decodeRun_ok hdec
    exact happ rest

/-! ## Encoding what was decoded -/

theorem un16_le (lo hi : Byte) : un16 lo hi ≤ 65535 := by
  simp only [un16]
  omega

theorem le16_un16 (lo hi : Byte) : le16 (un16 lo hi) = [lo, hi] := by
  have hlo : un16 lo hi % 256 = lo.toNat := by
    simp only [un16]
    omega
  have hhi : un16 lo hi / 256 = hi.toNat := by
    simp only [un16]
    omega
  simp only [le16, hlo, hhi, BitVec.ofNat_toNat, BitVec.setWidth_eq]

/-- A legal command word is the encoding of its instruction; any other carries itself. -/
theorem decodeCmd_reencodes (w : Word) : wellFormed (decodeCmd w) = true ∧ encode (decodeCmd w) = .cmd w := by
  by_cases hw : w ∈ legalCommandWords
  · simp only [legalCommandWords, List.mem_cons, List.not_mem_nil, or_false] at hw
    rcases hw with rfl | rfl | rfl | rfl | rfl | rfl | rfl <;> decide
  · rw [decodeCmd_illegal hw]
    exact ⟨(wellFormed_cmdIllegal_iff w).mpr hw, rfl⟩

theorem decodeFrame_reencodes {b rest : List Byte} {i : Instr} (h : decodeFrame b = .ok (i, rest)) :
    wellFormed i = true ∧ streamBytes i ++ rest = b := by
  rcases b with _ | ⟨tag, body⟩
  · cases h
  by_cases hz : tag = 0x5A#8
  · subst hz
    cases h
    exact ⟨rfl, rfl⟩
  by_cases hg : tag = 0x47#8
  · subst hg
    rcases body with _ | ⟨lo, _ | ⟨hi, body⟩⟩
    · cases h
    · cases h
    by_cases hlen : un16 lo hi ≤ body.length
    · rw [decodeFrame_g hlen] at h
      cases h
      have htake := List.length_take_of_le hlen
      refine ⟨(wellFormed_g_iff _).mpr (htake.le.trans (un16_le lo hi)), ?_⟩
      simp only [streamBytes, encode, Encoding.streamBytes, htake, le16_un16, List.cons_append, List.nil_append,
        List.take_append_drop]
    · rw [decodeFrame_g_payloadCut (Nat.lt_of_not_le hlen)] at h
      cases h
  · rw [decodeFrame_reservedTag body hg hz] at h
    cases h
    exact ⟨(wellFormed_frameReservedTag_iff tag).mpr ⟨hg, hz⟩, rfl⟩

theorem decodeRun_reencodes {b rest : List Byte} {i : Instr} (h : decodeRun b = .ok (i, rest)) :
    wellFormed i = true ∧ streamBytes i ++ rest = b := by
  rcases b with _ | ⟨c, body⟩
  · cases h
  rcases controlByte_cases c with hc | rfl | hc
  · by_cases hlen : c.toNat + 1 ≤ body.length
    · rw [decodeRun_lit hc hlen] at h
      cases h
      have htake := List.length_take_of_le hlen
      refine ⟨(wellFormed_lit_iff _).mpr (by omega), ?_⟩
      simp only [streamBytes, encode, Encoding.streamBytes, htake, Nat.add_sub_cancel, BitVec.ofNat_toNat,
        BitVec.setWidth_eq, List.cons_append, List.take_append_drop]
    · rw [decodeRun_lit_cut hc (Nat.lt_of_not_le hlen)] at h
      cases h
  · cases h
    exact ⟨rfl, rfl⟩
  · rcases body with _ | ⟨x, body⟩
    · rw [decodeRun_rep_cut hc] at h
      cases h
    · rw [decodeRun_rep hc] at h
      cases h
      have hctl : 257 - (257 - c.toNat) = c.toNat := by omega
      refine ⟨(wellFormed_rep_iff _ x).mpr (by omega), ?_⟩
      simp only [streamBytes, encode, Encoding.streamBytes, hctl, BitVec.ofNat_toNat, BitVec.setWidth_eq,
        List.cons_append, List.nil_append]

/-- Settles O3, format by format. -/
theorem decodeLosesNoBit : Obligations.DecodeLosesNoBit := by
  refine ⟨decodeCmd_reencodes, fun b i rest h => ?_, fun b i rest h => ?_⟩
  · obtain ⟨hwf, hbytes⟩ := decodeFrame_reencodes h
    exact ⟨hwf, (decodeFrame_ok h).1, hbytes⟩
  · obtain ⟨hwf, hbytes⟩ := decodeRun_reencodes h
    exact ⟨hwf, (decodeRun_ok h).1, hbytes⟩

/-! ## The legal command words (R71) -/

theorem getLsbD_of_zero_field {v lo n i : Nat} {x : BitVec v} (h : x.extractLsb' lo n = 0#n) (hlo : lo ≤ i)
    (hi : i < lo + n) : x.getLsbD i = false := by
  have hbit := congrArg (BitVec.getLsbD · (i - lo)) h
  have hn : i - lo < n := by omega
  simpa [hn, hlo] using hbit

/-- A word with nothing outside `OP` and `COMP` is the word of those two fields. -/
theorem eq_commandWord_of_reserved_zero {w : Word} (hmid : w.extractLsb' 3 5 = 0#5) (hhigh : w.extractLsb' 9 23 = 0#23) :
    w = commandWord (cmdOp w) (cmdComp w) := by
  apply BitVec.eq_of_getLsbD_eq
  intro i hi
  simp only [commandWord, BitVec.getLsbD_or, placeField_getLsbD, compBit_getLsbD, cmdComp_eq_rle, cmdOp,
    BitVec.getLsbD_extractLsb', Bool.and_assoc, placedBit]
  by_cases hop : i < 3
  · have hcomp : i ≠ 8 := by omega
    simp [hi, hop, hcomp]
  by_cases hcomp : i = 8
  · simp [hcomp]
  have hzero : w.getLsbD i = false := by
    by_cases h8 : i < 8
    · exact getLsbD_of_zero_field hmid (by omega) (by omega)
    · exact getLsbD_of_zero_field hhigh (by omega) (by omega)
  simp [hzero, hop, hcomp]

/-- The fields R71 admits: `OP` at most 4, and `COMP` set with the two transfer operations only. -/
theorem commandWord_mem_legalCommandWords {op : BitVec 3} {comp : CompressionType} (hop : op.toNat ≤ 4)
    (hcomp : comp = .rle → op = 1#3 ∨ op = 2#3) : commandWord op comp ∈ legalCommandWords := by
  cases comp with
  | raw =>
    clear hcomp
    revert op
    decide
  | rle => rcases hcomp rfl with rfl | rfl <;> decide

theorem mem_legalCommandWords_iff (w : Word) :
    w ∈ legalCommandWords ↔
      (w.extractLsb' 0 3).toNat ≤ 4 ∧ w.extractLsb' 3 5 = 0#5 ∧ w.extractLsb' 9 23 = 0#23 ∧
        (w.getLsbD 8 = true → w.extractLsb' 0 3 = 1#3 ∨ w.extractLsb' 0 3 = 2#3) := by
  constructor
  · intro h
    simp only [legalCommandWords, List.mem_cons, List.not_mem_nil, or_false] at h
    rcases h with rfl | rfl | rfl | rfl | rfl | rfl | rfl <;> decide
  · rintro ⟨hop, hmid, hhigh, hcomp⟩
    rw [eq_commandWord_of_reserved_zero hmid hhigh]
    refine commandWord_mem_legalCommandWords hop fun hrle => hcomp ?_
    rw [← cmdComp_eq_rle, hrle]
    rfl

/-- Settles O4: the two tables agree word by word, and `decodeCmd` knows the seven words only. -/
theorem exactlySevenLegalCommandWords : Obligations.ExactlySevenLegalCommandWords :=
  ⟨by decide, fun w => ⟨mem_legalCommandWords_iff w, decodeCmd_illegal⟩⟩

/-! ## The statements about one unit -/

/-- Settles O5, range by range of the control byte. -/
theorem runRecordDecoding : Obligations.RunRecordDecoding := by
  refine fun c rest => ⟨decodeRun_lit, decodeRun_lit_cut, ?_, ?_, ?_⟩
  · rintro rfl
    exact decodeRun_reserved rest
  · rintro hc rfl
    exact decodeRun_rep_cut hc
  · rintro hc b r rfl
    exact decodeRun_rep hc b r

/-- Settles O6, by what the first byte is and how far its frame's bytes go. -/
theorem frameDecoding : Obligations.FrameDecoding :=
  ⟨decodeFrame_z, fun _ _ _ => decodeFrame_g, fun _ _ _ => decodeFrame_g_payloadCut,
    fun _ => decodeFrame_g_lengthCut, fun _ => decodeFrame_reservedTag⟩

/-- Settles O7: the model reads each of these words. -/
theorem sampleWordsDecode : Obligations.SampleWordsDecode := by
  unfold Obligations.SampleWordsDecode
  decide

end Sys2Proof.Machine

/-! # The family of 40_rle_codec.md: run records, decoding and the reference encoder -/

namespace Sys2Proof.Machine

/-! ## Run records of a packed buffer (R90 to R93) -/

/-- A literal or repeat run with its operands in range: what a packed buffer is made of (R90). -/
def IsPackedRecord (i : Instr) : Prop := isRecord i = true ∧ wellFormed i = true

theorem isPackedRecord_iff (i : Instr) :
    IsPackedRecord i ↔
      (∃ d : List Byte, i = .lit d ∧ 1 ≤ d.length ∧ d.length ≤ 128) ∨ ∃ (n : Nat) (b : Byte), i = .rep n b ∧ 2 ≤ n ∧ n ≤ 128 := by
  cases i with
  | lit d => simp [IsPackedRecord, isRecord, wellFormed]
  | rep n b => simp [IsPackedRecord, isRecord, wellFormed]
  | _ => simp [IsPackedRecord, isRecord]

theorem isPackedRecord_lit {d : List Byte} (h1 : 1 ≤ d.length) (h128 : d.length ≤ 128) : IsPackedRecord (.lit d) :=
  ⟨rfl, (wellFormed_lit_iff d).mpr ⟨h1, h128⟩⟩

theorem isPackedRecord_rep {n : Nat} (b : Byte) (h2 : 2 ≤ n) (h128 : n ≤ 128) : IsPackedRecord (.rep n b) :=
  ⟨rfl, (wellFormed_rep_iff n b).mpr ⟨h2, h128⟩⟩

/-- A record is parsed from the bytes behind which anything may follow (R79, R91, R92). -/
theorem recParse_record {i : Instr} (hi : IsPackedRecord i) (rest : List Byte) :
    recParse (streamBytes i ++ rest) = .ok ((streamBytes i).length, recordData i) := by
  obtain ⟨-, hrun⟩ := streamDecodeSelfDelimiting i rest hi.2
  obtain ⟨d, rfl, -⟩ | ⟨n, b, rfl, -⟩ := (isPackedRecord_iff i).mp hi
  · exact recParse_of_decoded .raw rfl (hrun rfl)
  · exact recParse_of_decoded .raw rfl (hrun rfl)

/-- Only a literal or repeat run with its operands in range parses (R93). -/
theorem exists_record_of_recParse {q : List Byte} {r : Nat × List Byte} (h : recParse q = .ok r) :
    ∃ i rest, IsPackedRecord i ∧ q = streamBytes i ++ rest := by
  cases hd : decodeRun q with
  | error e => simp [recParse, hd] at h
  | ok ir =>
    obtain ⟨i, rest⟩ := ir
    obtain ⟨hwf, hbytes⟩ := decodeRun_reencodes hd
    cases i with
    | lit d => exact ⟨.lit d, rest, ⟨rfl, hwf⟩, hbytes.symm⟩
    | rep n b => exact ⟨.rep n b, rest, ⟨rfl, hwf⟩, hbytes.symm⟩
    | _ => simp [recParse, hd] at h

/-- How long a record is, and how its length and its data's bound each other (R91, R92). -/
theorem record_size {i : Instr} (hi : IsPackedRecord i) :
    2 ≤ (streamBytes i).length ∧ (streamBytes i).length ≤ 2 * (recordData i).length ∧
      (recordData i).length ≤ 64 * (streamBytes i).length := by
  obtain ⟨d, rfl, h1, h128⟩ | ⟨n, b, rfl, h2, h128⟩ := (isPackedRecord_iff i).mp hi
  · simp only [streamBytes_lit_length, recordData]
    omega
  · simp only [streamBytes, encode, Encoding.streamBytes, List.length_cons, List.length_nil, recordData,
      List.length_replicate]
    omega

theorem record_ne_nil {i : Instr} (hi : IsPackedRecord i) : streamBytes i ≠ [] := by
  obtain ⟨h2, -⟩ := record_size hi
  exact List.ne_nil_of_length_pos (by omega)

/-- Settles O13, range by range of the control byte. -/
theorem runRecordMeaning : Obligations.RunRecordMeaning := by
  refine fun c rest => ⟨fun hc hlen => ?_, fun hc hlen => ?_, ?_, ?_, ?_⟩
  · simp only [recParse, decodeRun_lit_cut hc hlen]
  · simp only [recParse, decodeRun_lit hc hlen, List.length_take_of_le hlen]
  · rintro rfl
    simp only [recParse, decodeRun_reserved]
  · rintro hc rfl
    simp only [recParse, decodeRun_rep_cut hc]
  · rintro hc b r rfl
    simp only [recParse, decodeRun_rep hc]

/-! ## Records of a running `RLE_DEC` (R143, R144) -/

/-- A unit step moves the cursor and the output, counts one unit and keeps all else (R56). -/
theorem unitStep_eq (s : State) (k : Nat) (out : List Byte) :
    s.unitStep k out = { s with
      inq := s.inq.drop k, inPos := s.inPos + BitVec.ofNat 32 k,
      outq := s.outq ++ out, outLen := s.outLen + BitVec.ofNat 32 out.length, unitCnt := s.unitCnt + 1#32 } := rfl

/-- Settles O32: both records are units of the running job. -/
theorem runRecordUnits : Obligations.RunRecordUnits := by
  refine ⟨fun s d hb ho hr => ?_, fun s n b hb ho hr => ?_⟩
  · rw [exec_lit, decodeUnit_ok d hb ho hr, unitStep_eq]
  · rw [exec_rep, decodeUnit_ok _ hb ho hr, unitStep_eq, List.length_replicate]

/-- Settles O33: the reserved control byte is a unit in error. -/
theorem reservedControlFaults : Obligations.ReservedControlFaults := by
  intro s hb ho hr
  rw [exec_runReserved, decodeUnit_error _ hb ho hr]
  exact ⟨fun h => if_pos h, fun h => if_neg h⟩

/-! ## `RleDecode` over packed buffers (R94) -/

theorem rleLoop_record {i : Instr} (hi : IsPackedRecord i) (rest : List Byte) :
    rleLoop (streamBytes i ++ rest) = (rleLoop rest).afterUnit (streamBytes i).length (recordData i) := by
  have hparse := recParse_record hi rest
  obtain ⟨b, xs, hx⟩ := List.exists_cons_of_ne_nil (List.append_ne_nil_of_left_ne_nil (record_ne_nil hi) rest)
  rw [hx] at hparse ⊢
  rw [rleLoop_ok hparse, ← hx, List.drop_left]
  rfl

/-- The loop runs through well-formed records and goes on behind them. -/
theorem rleLoop_records {rs : List Instr} (hrs : ∀ i ∈ rs, IsPackedRecord i) (q : List Byte) :
    rleLoop (rs.flatMap streamBytes ++ q) =
      ⟨rs.flatMap recordData ++ (rleLoop q).out, (rleLoop q).units + rs.length,
        (rleLoop q).pos + (rs.flatMap streamBytes).length, (rleLoop q).err⟩ := by
  induction rs with
  | nil => rfl
  | cons i rs ih =>
    obtain ⟨hi, hrs⟩ := List.forall_mem_cons.mp hrs
    simp only [List.flatMap_cons, List.append_assoc, rleLoop_record hi, ih hrs, LoopEnd.afterUnit, List.length_cons,
      List.length_append, LoopEnd.mk.injEq, true_and, and_true]
    omega

theorem rleDecode_packed {p : List Byte} {rs : List Instr} (h : PackedAs p rs) :
    rleDecode p = .ok (rs.flatMap recordData) := by
  obtain ⟨hrs, rfl⟩ := h
  have hloop := rleLoop_records hrs []
  rw [List.append_nil] at hloop
  simp [rleDecode, hloop]

theorem rleDecode_packed_error {p q : List Byte} {rs : List Instr} {K : ErrKind} (h : PackedAs p rs) (hq : q ≠ [])
    (he : recParse q = .error K) : rleDecode (p ++ q) = .error (K, p.length) := by
  obtain ⟨hrs, rfl⟩ := h
  obtain ⟨b, xs, rfl⟩ := List.exists_cons_of_ne_nil hq
  simp [rleDecode, rleLoop_records hrs, rleLoop_error he]

theorem packedAs_nil : PackedAs [] [] := ⟨List.forall_mem_nil _, rfl⟩

theorem PackedAs.cons {p : List Byte} {rs : List Instr} {i : Instr} (hi : IsPackedRecord i) (h : PackedAs p rs) :
    PackedAs (streamBytes i ++ p) (i :: rs) := by
  obtain ⟨hrs, rfl⟩ := h
  exact ⟨List.forall_mem_cons.mpr ⟨hi, hrs⟩, rfl⟩

/-- Every byte sequence is a packed buffer, or one followed by a record in error. -/
theorem packed_or_error (p : List Byte) :
    (∃ rs, PackedAs p rs) ∨
      ∃ p' rs q K, PackedAs p' rs ∧ p = p' ++ q ∧ q ≠ [] ∧ recParse q = .error K := by
  by_cases hp : p = []
  · exact .inl ⟨[], hp ▸ packedAs_nil⟩
  cases hrec : recParse p with
  | error K => exact .inr ⟨[], [], p, K, packedAs_nil, rfl, hp, hrec⟩
  | ok r =>
    obtain ⟨i, rest, hi, happ⟩ := exists_record_of_recParse hrec
    obtain ⟨rs, hrs⟩ | ⟨p', rs, q, K, hrs, rfl, hq, he⟩ := packed_or_error rest
    · exact .inl ⟨i :: rs, happ ▸ hrs.cons hi⟩
    · exact .inr ⟨streamBytes i ++ p', i :: rs, q, K, hrs.cons hi, by rw [happ, List.append_assoc], hq, he⟩
termination_by p.length
decreasing_by
  have := List.length_pos_iff.mpr (record_ne_nil hi)
  rw [happ, List.length_append]
  omega

/-- Settles O12: of the two forms a byte sequence can have, the answer tells which it is. -/
theorem rleDecodeAcceptsExactlyPackedBuffers : Obligations.RleDecodeAcceptsExactlyPackedBuffers := by
  refine ⟨fun p out => ⟨fun h => ?_, ?_⟩, fun p K j => ⟨fun h => ?_, ?_⟩⟩
  · obtain ⟨rs, hp⟩ | ⟨p', rs, q, K, hp, rfl, hq, he⟩ := packed_or_error p
    · rw [rleDecode_packed hp] at h
      cases h
      exact ⟨rs, hp, rfl⟩
    · rw [rleDecode_packed_error hp hq he] at h
      cases h
  · rintro ⟨rs, hp, rfl⟩
    exact rleDecode_packed hp
  · obtain ⟨rs, hp⟩ | ⟨p', rs, q, K', hp, rfl, hq, he⟩ := packed_or_error p
    · rw [rleDecode_packed hp] at h
      cases h
    · rw [rleDecode_packed_error hp hq he] at h
      cases h
      have htake : (p' ++ q).take p'.length = p' := List.take_left
      exact ⟨q, rs, by rwa [htake], by rw [htake], by rw [htake], hq, he⟩
  · rintro ⟨q, rs, hp, happ, hlen, hq, he⟩
    have hdec := rleDecode_packed_error hp hq he
    rwa [happ, hlen] at hdec

/-! ## The size of decoded data (R102) -/

theorem records_size {rs : List Instr} (hrs : ∀ i ∈ rs, IsPackedRecord i) :
    (rs.flatMap streamBytes).length ≤ 2 * (rs.flatMap recordData).length ∧
      (rs.flatMap recordData).length ≤ 64 * (rs.flatMap streamBytes).length ∧
      (rs ≠ [] → 2 ≤ (rs.flatMap streamBytes).length) := by
  induction rs with
  | nil => simp
  | cons i rs ih =>
    obtain ⟨hi, hrs⟩ := List.forall_mem_cons.mp hrs
    obtain ⟨hpacked, hdata, -⟩ := ih hrs
    obtain ⟨h2, hpacked1, hdata1⟩ := record_size hi
    simp only [List.flatMap_cons, List.length_append]
    omega

/-- Settles O11: the bounds hold record by record. -/
theorem rleDecodeSize : Obligations.RleDecodeSize := by
  intro p out h
  obtain ⟨rs, ⟨hrs, rfl⟩, rfl⟩ := (rleDecodeAcceptsExactlyPackedBuffers.1 p out).mp h
  obtain ⟨hpacked, hdata, h2⟩ := records_size hrs
  refine ⟨hpacked, hdata, fun h16 => ⟨h2 ?_, by omega⟩⟩
  rintro rfl
  cases h16

/-! ## The encoder's runs (R96) -/

theorem take_matchLen (b : Byte) (cap : Nat) (xs : List Byte) :
    xs.take (matchLen b cap xs) = List.replicate (matchLen b cap xs) b := by
  induction cap generalizing xs with
  | zero => simp [matchLen]
  | succ cap ih =>
    rcases xs with _ | ⟨x, xs⟩
    · rfl
    · by_cases hx : x = b <;> simp [matchLen, hx, ih, List.replicate_succ]

theorem matchLen_stops (b : Byte) (cap : Nat) (xs : List Byte) :
    matchLen b cap xs = cap ∨ xs[matchLen b cap xs]? ≠ some b := by
  induction cap generalizing xs with
  | zero => exact .inl rfl
  | succ cap ih =>
    rcases xs with _ | ⟨x, xs⟩
    · simp [matchLen]
    · by_cases hx : x = b
      · simpa [matchLen, hx] using ih xs
      · simp [matchLen, hx]

/-- The run of the first byte holds that byte only. -/
theorem take_runLen (b : Byte) (xs : List Byte) :
    (b :: xs).take (runLen (b :: xs)) = List.replicate (runLen (b :: xs)) b := by
  rw [runLen_cons, List.take_succ_cons, take_matchLen, List.replicate_succ]

theorem runLen_stops (b : Byte) (xs : List Byte) :
    runLen (b :: xs) = 128 ∨ (b :: xs)[runLen (b :: xs)]? ≠ some b := by
  simpa [runLen_cons] using matchLen_stops b 127 xs

/-- Where no run of two begins, the next byte is another. -/
theorem getElem?_ne_succ_of_runLen {x : List Byte} {j : Nat} (h : runLen (x.drop j) = 1) (hj : j + 1 < x.length) :
    x[j]? ≠ x[j + 1]? := by
  rw [List.drop_eq_getElem_cons (by omega), List.drop_eq_getElem_cons hj, runLen_eq_one_iff] at h
  rw [List.getElem?_eq_getElem (by omega), List.getElem?_eq_getElem hj]
  exact fun he => h (Option.some.inj he).symm

/-- `k` is how far a literal run at the head of `x` goes (R96). -/
structure LiteralRun (x : List Byte) (k : Nat) : Prop where
  pos : 1 ≤ k
  le_cap : k ≤ 128
  le_length : k ≤ x.length
  single : ∀ j, j < k → runLen (x.drop j) = 1
  stops : k = 128 ∨ runLen (x.drop k) ≠ 1

theorem litExtra_single {cap j : Nat} {xs : List Byte} (h : j < litExtra cap xs) : runLen (xs.drop j) = 1 := by
  induction cap generalizing xs j with
  | zero => simp [litExtra] at h
  | succ cap ih =>
    rcases xs with _ | ⟨x, xs⟩
    · simp [litExtra] at h
    · by_cases hx : runLen (x :: xs) = 1
      · rcases j with _ | j
        · exact hx
        · simp only [litExtra, if_pos hx] at h
          exact ih (xs := xs) (Nat.lt_of_succ_lt_succ h)
      · simp [litExtra, hx] at h

theorem litExtra_stops (cap : Nat) (xs : List Byte) :
    litExtra cap xs = cap ∨ runLen (xs.drop (litExtra cap xs)) ≠ 1 := by
  induction cap generalizing xs with
  | zero => exact .inl rfl
  | succ cap ih =>
    rcases xs with _ | ⟨x, xs⟩
    · simp [litExtra]
    · by_cases hx : runLen (x :: xs) = 1
      · simpa [litExtra, hx] using ih xs
      · simp [litExtra, hx]

theorem literalRun_litExtra {b : Byte} {xs : List Byte} (h : runLen (b :: xs) = 1) :
    LiteralRun (b :: xs) (litExtra 127 xs + 1) where
  pos := Nat.succ_pos _
  le_cap := Nat.succ_le_succ (litExtra_le_cap 127 xs)
  le_length := Nat.succ_le_succ (litExtra_le_length 127 xs)
  single
    | 0, _ => h
    | _ + 1, hj => litExtra_single (xs := xs) (Nat.lt_of_succ_lt_succ hj)
  stops := (litExtra_stops 127 xs).imp_left (congrArg (· + 1))

/-- What a turn of the encoder can make: a repeat run of the first byte, or a literal run. -/
theorem firstRun_cases (b : Byte) (xs : List Byte) :
    (2 ≤ runLen (b :: xs) ∧ firstRun (b :: xs) = (runLen (b :: xs), .rep (runLen (b :: xs)) b)) ∨
      (runLen (b :: xs) = 1 ∧ ∃ k, LiteralRun (b :: xs) k ∧ firstRun (b :: xs) = (k, .lit ((b :: xs).take k))) := by
  obtain ⟨h1, -⟩ := runLen_bounds b xs
  by_cases h2 : 2 ≤ runLen (b :: xs)
  · exact .inl ⟨h2, firstRun_of_repeat b xs h2⟩
  · have hone : runLen (b :: xs) = 1 := by omega
    exact .inr ⟨hone, _, literalRun_litExtra hone, firstRun_of_single b xs (by omega)⟩

/-- A turn of the encoder makes a well-formed record of exactly the bytes it consumes. -/
theorem firstRun_record (b : Byte) (xs : List Byte) :
    IsPackedRecord (firstRun (b :: xs)).2 ∧
      recordData (firstRun (b :: xs)).2 = (b :: xs).take (firstRun (b :: xs)).1 := by
  obtain ⟨-, h128, -⟩ := runLen_bounds b xs
  obtain ⟨h2, hrun⟩ | ⟨-, k, hk, hrun⟩ := firstRun_cases b xs
  · rw [hrun]
    exact ⟨isPackedRecord_rep b h2 h128, (take_runLen b xs).symm⟩
  · have hlen := List.length_take_of_le hk.le_length
    rw [hrun]
    exact ⟨isPackedRecord_lit (hlen.symm ▸ hk.pos) (hlen.symm ▸ hk.le_cap), rfl⟩

/-- Settles O14: each turn of the encoder's loop is one of its two cases. -/
theorem referenceEncoderRuns : Obligations.ReferenceEncoderRuns := by
  refine ⟨rfl, fun b xs => ⟨?_, fun h2 => ?_, fun h1 => ?_⟩⟩
  · obtain ⟨hpos, hcap, hlen⟩ := runLen_bounds b xs
    refine ⟨hpos, hcap, hlen, fun j hj => ?_, runLen_stops b xs⟩
    rw [← List.getElem?_take_of_lt hj, take_runLen, List.getElem?_replicate, if_pos hj]
  · have hmod : (257 - runLen (b :: xs)) % 256 = 257 - runLen (b :: xs) := Nat.mod_eq_of_lt (by omega)
    rw [rleEncode_cons, firstRun_of_repeat b xs h2, hmod]
    rfl
  · obtain ⟨h2, -⟩ | ⟨-, k, hk, hrun⟩ := firstRun_cases b xs
    · omega
    · refine ⟨k, hk.pos, hk.le_cap, hk.le_length, fun j _ hj => hk.single j hj, hk.stops.imp_right .inr, ?_⟩
      rw [rleEncode_cons, hrun]
      simp only [streamBytes, encode, Encoding.streamBytes, List.length_take_of_le hk.le_length]

/-! ## The encoder's records -/

/-- Induction along a loop that takes `size` bytes off in each turn. -/
theorem chunk_induction {P : List Byte → Prop} (size : List Byte → Nat) (hsize : ∀ b xs, 1 ≤ size (b :: xs)) (nil : P [])
    (cons : ∀ b xs, P ((b :: xs).drop (size (b :: xs))) → P (b :: xs)) (x : List Byte) : P x := by
  rcases x with _ | ⟨b, xs⟩
  · exact nil
  · exact cons b xs (chunk_induction size hsize nil cons _)
termination_by x.length
decreasing_by
  have := hsize b xs
  simp only [List.length_drop, List.length_cons]
  omega

/-- Induction along the turns of `RleEncode`'s loop (R96). -/
theorem encoder_induction {P : List Byte → Prop} (nil : P [])
    (cons : ∀ b xs, P ((b :: xs).drop (firstRun (b :: xs)).1) → P (b :: xs)) (x : List Byte) : P x :=
  chunk_induction (fun y => (firstRun y).1) (fun b xs => (firstRun_consumes b xs).1) nil cons x

/-- Each record was made by a turn on the input from some offset on. -/
theorem exists_firstRun_of_mem_rleRecords {i : Instr} {x : List Byte} (h : i ∈ rleRecords x) :
    ∃ b xs, i = (firstRun (b :: xs)).2 := by
  induction x using encoder_induction with
  | nil => cases h
  | cons b xs ih =>
    rw [rleRecords_cons, List.mem_cons] at h
    obtain hi | hi := h
    · exact ⟨b, xs, hi⟩
    · exact ih hi

theorem packedAs_rleEncode (x : List Byte) : PackedAs (rleEncode x) (rleRecords x) := by
  refine ⟨fun i hi => ?_, rfl⟩
  obtain ⟨b, xs, rfl⟩ := exists_firstRun_of_mem_rleRecords hi
  exact (firstRun_record b xs).1

/-- The encoder's records stand for its input. -/
theorem rleRecords_data (x : List Byte) : (rleRecords x).flatMap recordData = x := by
  induction x using encoder_induction with
  | nil => rfl
  | cons b xs ih => rw [rleRecords_cons, List.flatMap_cons, ih, (firstRun_record b xs).2, List.take_append_drop]

/-- Settles O8: the encoder makes a packed buffer (O12) of records that stand for its input. -/
theorem runLengthRoundTrip : Obligations.RunLengthRoundTrip := by
  intro x
  rw [rleDecode_packed (packedAs_rleEncode x), rleRecords_data]

/-! ## The size of encoded data (R98, R117) -/

/-- A literal is one byte longer than its data, which the repeat run after it makes up for; only at the end of the input
none follows. -/
theorem rleEncode_length_bound (x : List Byte) :
    3 * (rleEncode x).length ≤ 4 * x.length + 2 ∧ (runLen x ≠ 1 → 3 * (rleEncode x).length ≤ 4 * x.length) := by
  induction x using encoder_induction with
  | nil => simp [rleEncode]
  | cons b xs ih =>
    obtain ⟨ih, ihrep⟩ := ih
    rw [rleEncode_cons, List.length_append]
    obtain ⟨h2, hrun⟩ | ⟨h1, k, ⟨hpos, -, hlen, -, hstop⟩, hrun⟩ := firstRun_cases b xs
    · obtain ⟨-, -, hlen⟩ := runLen_bounds b xs
      have hbytes : (streamBytes (.rep (runLen (b :: xs)) b)).length = 2 := rfl
      simp only [hrun, hbytes, List.length_drop] at ih ⊢
      omega
    · have hbytes : (streamBytes (.lit ((b :: xs).take k))).length = k + 1 := by
        rw [streamBytes_lit_length, List.length_take_of_le hlen]
      simp only [hrun, hbytes, List.length_drop] at ih ihrep ⊢
      obtain rfl | hstop := hstop
      · omega
      · have := ihrep hstop
        omega

/-- Settles O9: 22 is the bound at 16 bytes, reached by single bytes between pairs. -/
theorem rleEncodeSize : Obligations.RleEncodeSize := by
  refine ⟨rfl, fun x => ?_, ?_⟩
  · obtain ⟨hbound, -⟩ := rleEncode_length_bound x
    obtain ⟨-, -, h2⟩ := records_size (packedAs_rleEncode x).1
    refine ⟨by omega, fun hx => h2 ?_, fun h16 => by omega⟩
    obtain ⟨b, xs, rfl⟩ := List.exists_cons_of_ne_nil hx
    rw [rleRecords_cons]
    exact List.cons_ne_nil _ _
  · exact ⟨[0#8, 1#8, 1#8, 0#8, 1#8, 1#8, 0#8, 1#8, 1#8, 0#8, 1#8, 1#8, 0#8, 1#8, 1#8, 0#8], by decide, by decide⟩

/-! ## What the encoder never emits (R99) -/

/-- A record parses, and bytes that begin with the reserved control byte do not (R93). -/
theorem head_ne_reserved {i : Instr} (hi : IsPackedRecord i) : (streamBytes i).head? ≠ some 0x80#8 := by
  intro h
  obtain ⟨rest, hbytes⟩ := List.head?_eq_some_iff.mp h
  have hparse := recParse_record hi []
  rw [hbytes] at hparse
  cases hparse

theorem LiteralRun.neighbours_ne {x : List Byte} {k j : Nat} (h : LiteralRun x k) (hj : j + 1 < k) :
    (x.take k)[j]? ≠ (x.take k)[j + 1]? := by
  rw [List.getElem?_take_of_lt (by omega), List.getElem?_take_of_lt hj]
  exact getElem?_ne_succ_of_runLen (h.single j (by omega)) (hj.trans_le h.le_length)

theorem runLen_of_head_lit {y e : List Byte} (h : (rleRecords y)[0]? = some (.lit e)) : runLen y = 1 := by
  rcases y with _ | ⟨b, xs⟩
  · cases h
  · obtain ⟨-, hrun⟩ | ⟨h1, -⟩ := firstRun_cases b xs
    · rw [rleRecords_cons, hrun] at h
      cases h
    · exact h1

/-- A literal before a literal was ended by its length. -/
theorem adjacent_literals {x d e : List Byte} {j : Nat} (hd : (rleRecords x)[j]? = some (.lit d))
    (he : (rleRecords x)[j + 1]? = some (.lit e)) : d.length = 128 := by
  induction x using encoder_induction generalizing j with
  | nil => cases hd
  | cons b xs ih =>
    rw [rleRecords_cons] at hd he
    rcases j with _ | j
    · obtain ⟨-, hrun⟩ | ⟨-, k, hk, hrun⟩ := firstRun_cases b xs
      · rw [hrun] at hd
        cases hd
      · rw [hrun] at hd he
        cases hd
        have hnext := runLen_of_head_lit he
        rw [List.length_take_of_le hk.le_length]
        exact hk.stops.resolve_right (absurd hnext)
    · exact ih hd he

/-- Settles O10, from the two cases of a turn. -/
theorem encoderNeverEmitsReserved : Obligations.EncoderNeverEmitsReserved := by
  refine fun x => ⟨fun i hi => ⟨head_ne_reserved ((packedAs_rleEncode x).1 i hi), ?_⟩, fun j d e => adjacent_literals⟩
  obtain ⟨b, xs, rfl⟩ := exists_firstRun_of_mem_rleRecords hi
  obtain ⟨-, h128, -⟩ := runLen_bounds b xs
  obtain ⟨h2, hrun⟩ | ⟨-, k, hk, hrun⟩ := firstRun_cases b xs
  · rw [hrun]
    exact .inr ⟨_, b, rfl, h2, h128⟩
  · have hlen := List.length_take_of_le hk.le_length
    rw [hrun]
    exact .inl ⟨_, rfl, hlen.symm ▸ hk.pos, hlen.symm ▸ hk.le_cap, fun j hj => hk.neighbours_ne (hlen ▸ hj)⟩

/-! ## Transfers with any conforming encoder (R95, R118, R121) -/

theorem eq_zeroLine_of_isZeroLine {line : List Byte} (hlen : line.length = 16) (h : isZeroLine line = true) :
    line = zeroLine := by
  refine List.eq_replicate_iff.mpr ⟨hlen, fun b hb => ?_⟩
  simpa using List.all_eq_true.mp h b hb

/-- The frame of a line is well-formed and stands for the line (R116). -/
theorem lineFrame_spec {E : List Byte → List Byte} (hE : ConformingEncoder E) {line : List Byte} (hlen : line.length = 16)
    (comp : CompressionType) :
    isFrame (lineFrame E line comp) = true ∧ wellFormed (lineFrame E line comp) = true ∧
      unitOutput comp (lineFrame E line comp) = .ok line := by
  by_cases hz : isZeroLine line = true
  · simp only [lineFrame, if_pos hz]
    exact ⟨rfl, rfl, congrArg _ (eq_zeroLine_of_isZeroLine hlen hz).symm⟩
  · cases comp with
    | raw =>
      simp only [lineFrame, if_neg hz]
      exact ⟨rfl, (wellFormed_g_iff line).mpr (by omega), if_pos hlen⟩
    | rle =>
      obtain ⟨-, hdec⟩ := hE line
      obtain ⟨hsize, -⟩ := rleDecodeSize (E line) line hdec
      simp only [lineFrame, if_neg hz]
      exact ⟨rfl, (wellFormed_g_iff _).mpr (by omega), by simp only [unitOutput, payloadLine, hdec, if_pos hlen]⟩

theorem frameParse_lineFrame {E : List Byte → List Byte} (hE : ConformingEncoder E) {line : List Byte}
    (hlen : line.length = 16) (comp : CompressionType) (rest : List Byte) :
    frameParse comp (streamBytes (lineFrame E line comp) ++ rest) =
      .ok ((streamBytes (lineFrame E line comp)).length, line) := by
  obtain ⟨hframe, hwf, hout⟩ := lineFrame_spec hE hlen comp
  obtain ⟨hdec, -⟩ := streamDecodeSelfDelimiting _ rest hwf
  rw [frameParse_of_decoded hframe (hdec hframe), hout]
  rfl

theorem transferLoop_lineFrame {E : List Byte → List Byte} (hE : ConformingEncoder E) {line : List Byte}
    (hlen : line.length = 16) (comp : CompressionType) (rest : List Byte) :
    transferLoop comp (streamBytes (lineFrame E line comp) ++ rest) =
      (transferLoop comp rest).afterUnit (streamBytes (lineFrame E line comp)).length line := by
  have hparse := frameParse_lineFrame hE hlen comp rest
  obtain ⟨hpos, hle, -⟩ := frameParse_consumes hparse
  obtain ⟨b, xs, hx⟩ := List.exists_cons_of_ne_nil (List.ne_nil_of_length_pos (hpos.trans hle))
  rw [hx] at hparse ⊢
  rw [transferLoop_ok hparse, ← hx, List.drop_left]
  rfl

theorem encodeTransferWith_cons (E : List Byte → List Byte) (b : Byte) (xs : List Byte) (comp : CompressionType) :
    encodeTransferWith E (b :: xs) comp =
      streamBytes (lineFrame E (padLine ((b :: xs).take 16)) comp) ++ encodeTransferWith E ((b :: xs).drop 16) comp := by
  simp only [encodeTransferWith, lineSplit_cons, List.flatMap_cons]

/-- Padding the last line pads the whole bitmap (R111, R122). -/
theorem padLine_append_padding {x : List Byte} (hx : x ≠ []) :
    padLine (x.take 16) ++ (x.drop 16 ++ padding (x.drop 16).length) = x ++ padding x.length := by
  by_cases h : 16 ≤ x.length
  · have hmod : (x.length - 16) % 16 = x.length % 16 := by omega
    simp only [padLine, padding, List.length_take_of_le h, List.length_drop, hmod, Nat.sub_self, List.replicate_zero,
      List.append_nil, ← List.append_assoc, List.take_append_drop]
  · have hlen : 1 ≤ x.length := List.length_pos_iff.mpr hx
    have hpad : (16 - x.length % 16) % 16 = 16 - x.length := by omega
    have htake : x.take 16 = x := List.take_of_length_le (by omega)
    have hdrop : x.drop 16 = [] := List.drop_of_length_le (by omega)
    simp [padLine, padding, htake, hdrop, hpad]

/-- A transfer's loop runs to its end and gives every line. -/
theorem transferLoop_encodeTransferWith {E : List Byte → List Byte} (hE : ConformingEncoder E) (x : List Byte)
    (comp : CompressionType) :
    (transferLoop comp (encodeTransferWith E x comp)).err = none ∧
      (transferLoop comp (encodeTransferWith E x comp)).out = x ++ padding x.length := by
  induction x using chunk_induction (fun _ => 16) (fun _ _ => by decide) with
  | nil => exact ⟨rfl, rfl⟩
  | cons b xs ih =>
    obtain ⟨herr, hout⟩ := ih
    have hlen : (padLine ((b :: xs).take 16)).length = 16 := padLine_length _ (List.length_take_le 16 _)
    rw [encodeTransferWith_cons, transferLoop_lineFrame hE hlen]
    refine ⟨herr, ?_⟩
    rw [LoopEnd.afterUnit, hout, padLine_append_padding (List.cons_ne_nil b xs)]

/-- Settles O21: the loop runs through the frames without an error. -/
theorem anyConformingEncoderRoundTrip : Obligations.AnyConformingEncoderRoundTrip := by
  intro E hE x comp
  obtain ⟨herr, hout⟩ := transferLoop_encodeTransferWith hE x comp
  simp only [decodeTransfer, herr, hout]

end Sys2Proof.Machine

/-! # The family of 41_transfer_frame.md: lines, frames and transfers -/

namespace Sys2Proof.Machine

/-! ## The round trip of a transfer (R122) -/

/-- The hardware's encoder meets the contract of R95. -/
theorem conformingEncoder_rleEncode : ConformingEncoder rleEncode :=
  fun x => ⟨⟨rleRecords x, packedAs_rleEncode x⟩, runLengthRoundTrip x⟩

/-- Settles O20: the reference encoder is one of those for which O21 holds. -/
theorem transferRoundTrip : Obligations.TransferRoundTrip :=
  anyConformingEncoderRoundTrip rleEncode conformingEncoder_rleEncode

/-! ## Lines (R111) -/

/-- Induction along the lines of a bitmap. -/
theorem line_induction {P : List Byte → Prop} (nil : P []) (cons : ∀ b xs, P ((b :: xs).drop 16) → P (b :: xs))
    (x : List Byte) : P x :=
  chunk_induction (fun _ => 16) (fun _ _ => by decide) nil cons x

theorem lineSplit_length (x : List Byte) : (lineSplit x).length = (x.length + 15) / 16 := by
  induction x using line_induction with
  | nil => rfl
  | cons b xs ih =>
    rw [lineSplit_cons, List.length_cons, ih, List.length_drop, List.length_cons]
    omega

theorem lineSplit_getElem? {x : List Byte} {j : Nat} (h : 16 * j < x.length) :
    (lineSplit x)[j]? = some (padLine ((x.drop (16 * j)).take 16)) := by
  induction x using line_induction generalizing j with
  | nil => cases h
  | cons b xs ih =>
    rw [lineSplit_cons]
    rcases j with _ | j
    · rfl
    · have hrest : 16 * j < ((b :: xs).drop 16).length := by
        rw [List.length_drop]
        omega
      rw [List.getElem?_cons_succ, ih hrest, List.drop_drop, Nat.add_comm]
      rfl

/-- Settles O15: a line is sixteen bytes of the bitmap from its offset on, or what is left there, padded. -/
theorem lineSplitPartition : Obligations.LineSplitPartition := by
  refine fun x => ⟨lineSplit_length x, fun j hj => ?_⟩
  have hbytes : (x.take (min (16 * j + 16) x.length)).drop (16 * j) = (x.drop (16 * j)).take 16 := by
    rw [← List.take_eq_take_min, List.drop_take, Nat.add_sub_cancel_left]
  have hpad : 16 - ((x.drop (16 * j)).take 16).length = 16 - (min (16 * j + 16) x.length - 16 * j) := by
    rw [List.length_take, List.length_drop]
    omega
  rw [lineSplit_getElem? (by omega), hbytes, padLine, hpad]

/-! ## The frame of a line (R112, R116, R117) -/

theorem frameEncode_zeroLine (comp : CompressionType) : frameEncode zeroLine comp = [0x5A#8] := rfl

theorem not_isZeroLine {line : List Byte} (hlen : line.length = 16) (hne : line ≠ zeroLine) : ¬ isZeroLine line = true :=
  fun h => hne (eq_zeroLine_of_isZeroLine hlen h)

theorem frameEncode_rle {line : List Byte} (hlen : line.length = 16) (hne : line ≠ zeroLine) :
    frameEncode line .rle = streamBytes (.g (rleEncode line)) := by
  simp only [frameEncode, lineFrame, if_neg (not_isZeroLine hlen hne)]

theorem frameEncode_raw {line : List Byte} (hlen : line.length = 16) (hne : line ≠ zeroLine) :
    frameEncode line .raw = streamBytes (.g line) := by
  simp only [frameEncode, lineFrame, if_neg (not_isZeroLine hlen hne)]

/-- Settles O16: the zero test, then the compression type. -/
theorem frameEncodeCases : Obligations.FrameEncodeCases := by
  refine fun line comp hlen => ⟨?_, ?_, ?_⟩
  · rintro rfl
    exact frameEncode_zeroLine comp
  · rintro hne rfl
    exact frameEncode_rle hlen hne
  · rintro hne rfl
    rw [frameEncode_raw hlen hne, streamBytes, encode, hlen]
    rfl

/-- The high length byte of a `G` frame with a payload below 256 bytes is zero (R75, R117). -/
theorem streamBytes_g_high {p : List Byte} (h : p.length < 256) : (streamBytes (.g p))[2]? = some 0x00#8 := by
  have hhigh : p.length / 256 = 0 := Nat.div_eq_of_lt h
  simp only [streamBytes, encode, Encoding.streamBytes, le16, hhigh]
  rfl

/-- Settles O17: a `G` frame is three bytes longer than its payload, whose size O9 bounds. -/
theorem frameEncodeSizes : Obligations.FrameEncodeSizes := by
  obtain ⟨-, hsize, line22, hlen22, hpayload22⟩ := rleEncodeSize
  refine ⟨fun line hlen hne => ?_, fun comp => congrArg List.length (frameEncode_zeroLine comp),
    ⟨List.replicate 16 0xFF#8, rfl, by decide, by decide⟩, line22, hlen22, ?_⟩
  · obtain ⟨-, hmin, hmax⟩ := hsize line
    have h22 := hmax hlen
    have h2 := hmin (List.ne_nil_of_length_eq_add_one hlen)
    rw [frameEncode_rle hlen hne, frameEncode_raw hlen hne, streamBytes_g_length, streamBytes_g_length]
    exact ⟨h2, h22, by omega, by omega, streamBytes_g_high (by omega), by omega⟩
  · have hne : line22 ≠ zeroLine := by
      rintro rfl
      exact absurd hpayload22 (by decide)
    refine ⟨hne, ?_⟩
    rw [frameEncode_rle hlen22 hne, streamBytes_g_length, hpayload22]

/-! ## What a payload stands for (R113) -/

theorem payloadLine_raw {p : List Byte} (h : p.length = 16) : payloadLine .raw p = .ok p := if_pos h

theorem payloadLine_rawLen {p : List Byte} (h : p.length ≠ 16) : payloadLine .raw p = .error .rawLen := if_neg h

theorem payloadLine_rle {p d : List Byte} (hd : rleDecode p = .ok d) (h : d.length = 16) : payloadLine .rle p = .ok d := by
  simp only [payloadLine, hd, if_pos h]

theorem payloadLine_lineLen {p d : List Byte} (hd : rleDecode p = .ok d) (h : d.length ≠ 16) :
    payloadLine .rle p = .error .lineLen := by
  simp only [payloadLine, hd, if_neg h]

theorem payloadLine_rleError {p : List Byte} {K : ErrKind} {j : Nat} (hd : rleDecode p = .error (K, j)) :
    payloadLine .rle p = .error K := by
  simp only [payloadLine, hd]

/-! ## Parsing frames (R120) -/

theorem frameParse_z (comp : CompressionType) (rest : List Byte) :
    frameParse comp (0x5A#8 :: rest) = .ok (1, zeroLine) := rfl

/-- A whole `G` frame is consumed with its payload's line, or has its payload's error (R113). -/
theorem frameParse_g (comp : CompressionType) {lo hi : Byte} {body : List Byte} (h : un16 lo hi ≤ body.length) :
    frameParse comp (0x47#8 :: lo :: hi :: body) =
      (payloadLine comp (body.take (un16 lo hi))).map fun line => (3 + un16 lo hi, line) := by
  simp only [frameParse, decodeFrame_g h, List.length_take_of_le h]

theorem frameParse_g_line {comp : CompressionType} {lo hi : Byte} {body line : List Byte} (h : un16 lo hi ≤ body.length)
    (hline : payloadLine comp (body.take (un16 lo hi)) = .ok line) :
    frameParse comp (0x47#8 :: lo :: hi :: body) = .ok (3 + un16 lo hi, line) := by
  rw [frameParse_g comp h, hline]
  rfl

theorem frameParse_g_error {comp : CompressionType} {lo hi : Byte} {body : List Byte} {K : ErrKind}
    (h : un16 lo hi ≤ body.length) (herr : payloadLine comp (body.take (un16 lo hi)) = .error K) :
    frameParse comp (0x47#8 :: lo :: hi :: body) = .error K := by
  rw [frameParse_g comp h, herr]
  rfl

theorem frameParse_of_cut (comp : CompressionType) {b : List Byte} {e : DecodeReject} (h : decodeFrame b = .error e) :
    frameParse comp b = .error .frameTrunc := by
  simp only [frameParse, h]

theorem frameParse_reservedTag (comp : CompressionType) {tag : Byte} (rest : List Byte) (hg : tag ≠ 0x47#8)
    (hz : tag ≠ 0x5A#8) : frameParse comp (tag :: rest) = .error .tag := by
  simp only [frameParse, decodeFrame_reservedTag rest hg hz]

/-- Settles O18: the tag, then the bytes there, then the payload. -/
theorem frameParseCases : Obligations.FrameParseCases := by
  refine fun comp => ⟨frameParse_z comp, fun tag rest hz hg => frameParse_reservedTag comp rest hg hz,
    fun rest h => frameParse_of_cut comp (decodeFrame_g_lengthCut h),
    fun lo hi body h => frameParse_of_cut comp (decodeFrame_g_payloadCut h), ?_, fun b line c h => ?_⟩
  · rintro lo hi body p hle rfl
    refine ⟨?_, ?_, ?_, ?_, ?_⟩
    · rintro rfl h
      exact frameParse_g_error hle (payloadLine_rawLen h)
    · rintro rfl h
      have hconsumed : 3 + un16 lo hi = 19 := congrArg (3 + ·) ((List.length_take_of_le hle).symm.trans h)
      rw [frameParse_g_line hle (payloadLine_raw h), hconsumed]
      rfl
    · rintro rfl K j hd
      exact frameParse_g_error hle (payloadLine_rleError hd)
    · rintro rfl d hd h
      exact frameParse_g_error hle (payloadLine_lineLen hd h)
    · rintro rfl d hd h
      exact frameParse_g_line hle (payloadLine_rle hd h)
  · obtain ⟨hpos, hle, hlen⟩ := frameParse_consumes h
    exact ⟨hlen, hpos, hle⟩

/-! ## `DecodeTransfer`'s loop (R121) -/

theorem decodeTransfer_eq_ok_iff {x out : List Byte} {comp : CompressionType} :
    decodeTransfer x comp = .ok out ↔ (transferLoop comp x).err = none ∧ (transferLoop comp x).out = out := by
  rw [decodeTransfer]
  cases (transferLoop comp x).err with
  | none => simp
  | some K => simp

theorem decodeTransfer_eq_error_iff {x pre : List Byte} {comp : CompressionType} {K : ErrKind} {pos : Nat} :
    decodeTransfer x comp = .error (K, pos, pre) ↔
      (transferLoop comp x).err = some K ∧ (transferLoop comp x).pos = pos ∧ (transferLoop comp x).out = pre := by
  rw [decodeTransfer]
  cases (transferLoop comp x).err with
  | none => simp
  | some K => simp

/-- A loop whose every unit gives a multiple of `m` bytes gives a multiple of `m` bytes. -/
theorem dvd_length_parseLoop_out {parse : List Byte → Except ErrKind (Nat × List Byte)} {m : Nat}
    (hparse : ∀ y c d, parse y = .ok (c, d) → m ∣ d.length) (fuel : Nat) (y : List Byte) :
    m ∣ (parseLoop parse fuel y).out.length := by
  induction fuel generalizing y with
  | zero => exact Nat.dvd_zero m
  | succ fuel ih =>
    rcases y with _ | ⟨b, xs⟩
    · exact Nat.dvd_zero m
    · cases hp : parse (b :: xs) with
      | error K =>
        simp only [parseLoop, hp]
        exact Nat.dvd_zero m
      | ok r =>
        simp only [parseLoop, hp, List.length_append]
        exact Nat.dvd_add (hparse _ _ _ hp) (ih _)

/-- What a transfer's loop has put out is whole lines, whether or not it ends in an error (R121). -/
theorem transferLoop_wholeLines (comp : CompressionType) (x : List Byte) : (transferLoop comp x).out.length % 16 = 0 := by
  refine Nat.mod_eq_zero_of_dvd (dvd_length_parseLoop_out (fun y c line h => ?_) x.length x)
  obtain ⟨-, -, hlen⟩ := frameParse_consumes h
  exact hlen.symm.dvd

/-- Settles O19, frame by frame of the loop. -/
theorem decodeTransferLoop : Obligations.DecodeTransferLoop := by
  refine fun comp => ⟨rfl, fun b xs K h => ?_, fun b xs line c h => ⟨fun out hrest => ?_, fun K pos pre hrest => ?_⟩,
    fun x out h => ?_, fun x K pos pre h => ?_⟩
  · rw [decodeTransfer_eq_error_iff, transferLoop_error h]
    exact ⟨rfl, rfl, rfl⟩
  · obtain ⟨herr, rfl⟩ := decodeTransfer_eq_ok_iff.mp hrest
    rw [decodeTransfer_eq_ok_iff, transferLoop_ok h]
    exact ⟨herr, rfl⟩
  · obtain ⟨herr, rfl, rfl⟩ := decodeTransfer_eq_error_iff.mp hrest
    rw [decodeTransfer_eq_error_iff, transferLoop_ok h]
    exact ⟨herr, Nat.add_comm _ _, rfl⟩
  · obtain ⟨-, rfl⟩ := decodeTransfer_eq_ok_iff.mp h
    exact transferLoop_wholeLines comp x
  · obtain ⟨-, -, rfl⟩ := decodeTransfer_eq_error_iff.mp h
    exact transferLoop_wholeLines comp x

/-! ## Frames of a running `DEC_XFER` (R138, R139) -/

/-- A unit in error faults when all the rest of the job's input is queued and holds until then (R52, R139). -/
theorem decodeUnit_fault_or_hold {s : State} {op : BitVec 3} {k : Nat} (K : ErrKind) (hb : s.st = .busy) (ho : s.op = op)
    (hk : k ≤ s.ready) :
    (s.ready = s.rem → decodeUnit s op k (.error K) = .next (s.faultEntry K)) ∧
      (s.ready ≠ s.rem → decodeUnit s op k (.error K) = .next s) := by
  rw [decodeUnit_error K hb ho hk]
  exact ⟨fun h => if_pos h, fun h => if_neg h⟩

/-- A `G` frame whose payload stands for a line is performed. -/
theorem exec_g_line {s : State} {p line : List Byte} (hb : s.st = .busy) (ho : s.op = 2#3) (hr : 3 + p.length ≤ s.ready)
    (h : payloadLine s.comp p = .ok line) : exec (.g p) s = .next (s.unitStep (3 + p.length) line) := by
  rw [exec_g, h, decodeUnit_ok line hb ho hr]

/-- Settles O28: under both types the payload's line has 16 bytes. -/
theorem gFrameUnit : Obligations.GFrameUnit := by
  intro s p line hb ho hr
  refine ⟨?_, fun hc hd hlen => ?_⟩
  · rintro hc hlen rfl
    rw [exec_g_line hb ho hr (hc ▸ payloadLine_raw hlen), unitStep_eq, hlen]
  · rw [exec_g_line hb ho hr (hc ▸ payloadLine_rle hd hlen), unitStep_eq, hlen]

/-- Settles O29: each of the three premises makes the payload's line that error. -/
theorem gFrameFaults : Obligations.GFrameFaults := by
  intro s p K hb ho hr hK
  have herr : payloadLine s.comp p = .error K := by
    obtain ⟨hc, hlen, rfl⟩ | ⟨hc, j, hd⟩ | ⟨hc, rfl, d, hd, hlen⟩ := hK
    · exact hc ▸ payloadLine_rawLen hlen
    · exact hc ▸ payloadLine_rleError hd
    · exact hc ▸ payloadLine_lineLen hd hlen
  rw [exec_g, herr]
  exact decodeUnit_fault_or_hold K hb ho hr

/-- Settles O30: the unit is one byte and stands for sixteen zero bytes. -/
theorem zFrameUnit : Obligations.ZFrameUnit := by
  intro s hb ho hr
  rw [exec_z, decodeUnit_ok zeroLine hb ho hr, unitStep_eq, zeroLine_length, zeroLine]

/-- Settles O31: a reserved tag is a unit in error. -/
theorem reservedTagFaults : Obligations.ReservedTagFaults := by
  intro s tag hb ho hr
  rw [exec_frameReservedTag]
  exact decodeUnit_fault_or_hold .tag hb ho hr

end Sys2Proof.Machine

/-! # The family of 42_job_control.md: commands, the engine's steps and how jobs end -/

namespace Sys2Proof.Machine

/-! ## One step of a job whose whole input is queued (R145) -/

/-- A unit of some input takes a byte or more of it. -/
theorem jobUnit_pos {op : BitVec 3} {comp : CompressionType} {q out : List Byte} {k : Nat} (hq : q ≠ [])
    (h : jobUnit op comp q = .ok (k, out)) : 1 ≤ k := by
  obtain ⟨b, xs, rfl⟩ := List.exists_cons_of_ne_nil hq
  simp only [jobUnit] at h
  split at h
  · cases h
    simp only [List.length_cons]
    omega
  · split at h
    · exact frameParse_pos _ _ _ _ h
    · split at h
      · cases h
        exact (firstRun_consumes b xs).1
      · exact recParse_pos _ _ _ h

theorem input_ne_nil {s : State} (hr : s.ready = s.rem) (h : 1 ≤ s.rem) : s.inq.take s.rem ≠ [] := by
  rw [← window_eq_take_rem]
  exact List.ne_nil_of_length_pos (by rw [window_length]; omega)

/-- What the engine's turn does in a job of which nothing is left to push: it completes, performs the unit at the head of the
rest of the input, or enters that unit's fault. -/
inductive QueuedMove (s : State) : State → Prop where
  | complete (hp : s.inPos = s.inLen) : QueuedMove s s.complete
  | unit (hrem : 1 ≤ s.rem) (k : Nat) (out : List Byte) (hk : 1 ≤ k) (hle : k ≤ s.rem)
      (hunit : jobUnit s.op s.comp (s.inq.take s.rem) = .ok (k, out)) : QueuedMove s (s.unitStep k out)
  | fault (hrem : 1 ≤ s.rem) (K : ErrKind) (hunit : jobUnit s.op s.comp (s.inq.take s.rem) = .error K) :
      QueuedMove s (s.faultEntry K)

/-- With all its input queued a running job never holds. -/
theorem engineStep_queued {s : State} (hi : StateInv s) (hb : s.st = .busy) (hr : s.ready = s.rem) :
    ∃ t, engineStep s = .next t ∧ QueuedMove s t := by
  by_cases hp : s.inPos = s.inLen
  · exact ⟨_, engineStep_of_completes ⟨hb, hp⟩, .complete hp⟩
  have hrem := rem_pos_of_ne s (hi.cursor hb) hp
  have hu : s.UnitDue := ⟨hb, hp, hrem, hi.operation hb, by omega⟩
  have hhead : jobUnit s.op s.comp (s.inq.take s.rem) = s.headUnit := by rw [State.headUnit, window_eq_take_rem]
  rw [engineStep_of_unitDue hu]
  cases hd : s.headUnit with
  | ok r =>
    have hunit := hhead.trans hd
    exact ⟨_, rfl, .unit hrem r.1 r.2 (jobUnit_pos (input_ne_nil hr hrem) hunit) (hr ▸ headUnit_le_ready hd) hunit⟩
  | error K => exact ⟨_, if_pos hr, .fault hrem K (hhead.trans hd)⟩

/-- Settles O44: completion and fault entry end the job; a unit takes a byte or more, and fault entry takes all there is. -/
theorem engineProgress : Obligations.EngineProgress := by
  intro s hi hb hr
  have hcur := hi.cursor hb
  have ends : ∀ {t : State}, t.st = .done → t ≠ s := by
    rintro t hdone rfl
    exact absurd (hb.symm.trans hdone) (by decide)
  obtain ⟨t, h, hm⟩ := engineStep_queued hi hb hr
  refine ⟨t, h, ?_⟩
  cases hm with
  | complete hp => exact ⟨ends rfl, .inl ⟨hp, rfl⟩⟩
  | unit hrem k out hk hle _ =>
    have hpos := inPos_add_toNat s k hle
    rw [← State.unitStep_inPos s k out] at hpos
    refine ⟨fun he => ?_, .inr ⟨by omega, ?_⟩⟩
    · rw [he] at hpos
      omega
    · simp only [State.rem] at hle
      omega
  | fault hrem K _ =>
    have hpos : (s.faultEntry K).inPos = s.inLen := inPos_drain s hcur
    refine ⟨ends rfl, .inr ?_⟩
    rw [hpos]
    simp only [State.rem] at hrem
    omega

/-! ## Runs to the end of a job -/

/-- With no turns given a step is the engine's (log 1). -/
theorem step_of_no_turns {s : State} (h : s.turns = []) : step s = engineStep s := by
  have htail : s.turns.tail = s.turns := by rw [h, List.tail_nil]
  have htake : s.takeTurn = s := by rw [State.takeTurn, htail]
  rw [step_of_engine (by rw [State.nextTurn, h]; rfl), htake]

theorem run_succ_of_step {s s' t : State} {n : Nat} (h : step s = .next s') (hrun : Sys2Proof.core.run n s' = .next t) :
    Sys2Proof.core.run (n + 1) s = .next t := by
  have hstep : Sys2Proof.core.step s = .next s' := h
  simp only [Host.Core.run, hstep, hrun]

theorem unitStep_ready {s : State} {k : Nat} (out : List Byte) (hr : s.ready = s.rem) (hk : k ≤ s.rem) :
    (s.unitStep k out).ready = (s.unitStep k out).rem := by
  have hlen := rem_le_length_of_ready hr
  rw [State.ready, unitStep_rem s out hk, State.inAvail, State.unitStep_inq, List.length_drop]
  omega

/-- A running job with its input queued runs to its outcome, in at most a step for each byte left and one more. -/
theorem run_to_outcome {s : State} (hi : StateInv s) (hb : s.st = .busy) (hr : s.ready = s.rem) (ht : s.turns = []) :
    ∃ n, n ≤ s.rem + 1 ∧ Sys2Proof.core.run n s = .next s.outcome := by
  obtain ⟨t, h, hm⟩ := engineStep_queued hi hb hr
  rw [← step_of_no_turns ht] at h
  cases hm with
  | complete hp =>
    rw [outcome_of_completes hi ⟨hb, hp⟩]
    exact ⟨1, by omega, run_succ_of_step h rfl⟩
  | unit hrem k out hk hle hunit =>
    have hrem' := unitStep_rem s out hle
    obtain ⟨n, hn, hrun⟩ := run_to_outcome (hi.unitStep hb out hk (hr ▸ hle)) hb (unitStep_ready out hr hle) ht
    rw [outcome_unitStep hb (input_ne_nil hr hrem) hunit] at hrun
    exact ⟨n + 1, by omega, run_succ_of_step h hrun⟩
  | fault hrem K hunit =>
    rw [outcome_of_error hi hb (input_ne_nil hr hrem) hunit]
    exact ⟨1, by omega, run_succ_of_step h rfl⟩
termination_by s.rem
decreasing_by omega

/-- The outcome of a job just started is the result of its operation on its input (R146). -/
theorem ReadyJob.outcome_eq {s : State} {op : BitVec 3} (h : ReadyJob s op) {r : LoopEnd}
    (hres : jobResult op s.comp s.jobInput = r) :
    s.outcome = s.jobEnded r.out r.units (r.err.map fun K => (K, r.pos)) := by
  obtain ⟨hf, -, -⟩ := h
  have hrem : s.rem = s.inLen.toNat := by simp [State.rem, hf.cursor]
  rw [outcome_busy hf.running, hrem, hf.operation, ← State.jobInput, hres]
  cases he : r.err <;> simp [State.settled, State.jobEnded, he, hrem, hf.cursor, hf.noOutput, hf.noUnits]

/-- R146: a job just started whose whole input is queued runs to the result of its operation. -/
theorem ReadyJob.runs_to {s : State} {op : BitVec 3} (h : ReadyJob s op) (hop : 1 ≤ op.toNat ∧ op.toNat ≤ 4) {r : LoopEnd}
    (hres : jobResult op s.comp s.jobInput = r) :
    ∃ n, n ≤ s.inLen.toNat + 1 ∧
      Sys2Proof.core.run n s = .next (s.jobEnded r.out r.units (r.err.map fun K => (K, r.pos))) := by
  have hrem : s.rem = s.inLen.toNat := by simp [State.rem, h.fresh.cursor]
  have hready : s.ready = s.rem := Nat.min_eq_right (hrem ▸ h.input)
  rw [← hrem, ← h.outcome_eq hres]
  exact run_to_outcome (h.fresh.inv hop) h.fresh.running hready h.hostIdle

theorem ReadyJob.jobInput_length {s : State} {op : BitVec 3} (h : ReadyJob s op) : s.jobInput.length = s.inLen.toNat :=
  List.length_take_of_le h.input

/-- Settles O56: the result of an encoding job is the encoding of its input. -/
theorem encodeJobResults : Obligations.EncodeJobResults := by
  refine ⟨fun s h => ?_, fun s h => ?_⟩
  · have hrun := h.runs_to (by decide) rfl
    rw [← h.jobInput_length] at hrun ⊢
    exact hrun
  · exact h.runs_to (by decide) rfl

/-! ## What the decoders' loops count -/

/-- A loop whose every unit gives `m` bytes gives `m` bytes for each unit. -/
theorem length_parseLoop_out {parse : List Byte → Except ErrKind (Nat × List Byte)} {m : Nat}
    (hparse : ∀ y c d, parse y = .ok (c, d) → d.length = m) (fuel : Nat) (y : List Byte) :
    (parseLoop parse fuel y).out.length = m * (parseLoop parse fuel y).units := by
  induction fuel generalizing y with
  | zero => rfl
  | succ fuel ih =>
    rcases y with _ | ⟨b, xs⟩
    · rfl
    · cases hp : parse (b :: xs) with
      | error K =>
        simp only [parseLoop, hp]
        rfl
      | ok r =>
        simp only [parseLoop, hp, List.length_append, hparse _ _ _ hp, ih, Nat.mul_succ, Nat.add_comm m]

/-- A transfer's units are its lines (R121). -/
theorem transferLoop_units (comp : CompressionType) (x : List Byte) :
    (transferLoop comp x).units = (transferLoop comp x).out.length / 16 := by
  have hlen : (transferLoop comp x).out.length = 16 * (transferLoop comp x).units :=
    length_parseLoop_out (fun _ _ _ h => (frameParse_consumes h).2.2) _ _
  omega

theorem rleLoop_packed {p : List Byte} {rs : List Instr} (h : PackedAs p rs) :
    rleLoop p = ⟨rs.flatMap recordData, rs.length, p.length, none⟩ := by
  obtain ⟨hrs, rfl⟩ := h
  simpa using rleLoop_records hrs []

theorem rleLoop_packed_error {p q : List Byte} {rs : List Instr} {K : ErrKind} (h : PackedAs p rs) (hq : q ≠ [])
    (he : recParse q = .error K) : rleLoop (p ++ q) = ⟨rs.flatMap recordData, rs.length, p.length, some K⟩ := by
  obtain ⟨hrs, rfl⟩ := h
  obtain ⟨b, xs, rfl⟩ := List.exists_cons_of_ne_nil hq
  simp [rleLoop_records hrs, rleLoop_error he]

/-- Settles O57: the result of a decoding job is where the loop over its input ends. -/
theorem decodeJobResults : Obligations.DecodeJobResults := by
  refine ⟨fun s h => ⟨fun bm hd => ?_, fun K pos pre hd => ?_⟩, fun s h => ⟨fun d hd => ?_, fun K j hd => ?_⟩⟩
  · obtain ⟨herr, rfl⟩ := decodeTransfer_eq_ok_iff.mp hd
    have hrun := h.runs_to (by decide) (r := transferLoop s.comp s.jobInput) rfl
    rwa [herr, transferLoop_units] at hrun
  · obtain ⟨herr, rfl, rfl⟩ := decodeTransfer_eq_error_iff.mp hd
    have hrun := h.runs_to (by decide) (r := transferLoop s.comp s.jobInput) rfl
    rwa [herr, transferLoop_units] at hrun
  · obtain ⟨rs, hp, rfl⟩ := (rleDecodeAcceptsExactlyPackedBuffers.1 _ _).mp hd
    obtain ⟨n, hn, hrun⟩ := h.runs_to (by decide) (rleLoop_packed hp)
    exact ⟨rs, n, hp, hn, hrun⟩
  · obtain ⟨q, rs, hp, happ, hlen, hq, he⟩ := (rleDecodeAcceptsExactlyPackedBuffers.2 _ _ _).mp hd
    have hloop := rleLoop_packed_error hp hq he
    rw [happ, hlen] at hloop
    obtain ⟨n, hn, hrun⟩ := h.runs_to (by decide) hloop
    exact ⟨rs, n, hp, hn, hrun⟩

/-! ## Commands (R130 to R133) -/

/-- A command word, when accepted, leaves `IN_LEN`, both queues and the model's own fields as they are. -/
theorem exec_decodeCmd_accepts (s : State) (w : Word) :
    ∃ a, exec (decodeCmd w) s = acceptCommand s a ∧
      a.inLen = s.inLen ∧ a.inq = s.inq ∧ a.outq = s.outq ∧ a.turns = s.turns ∧ a.seen = s.seen := by
  rcases commandWord_cases w with hj | rfl | hi
  · exact ⟨_, exec_decodeCmd_job s hj, rfl, rfl, rfl, rfl, rfl⟩
  · exact ⟨_, exec_decodeCmd_zero s, rfl, rfl, rfl, rfl, rfl⟩
  · exact ⟨_, exec_decodeCmd_illegal s hi, rfl, rfl, rfl, rfl, rfl⟩

/-- R130: while a job runs a command word does nothing. -/
theorem exec_decodeCmd_busy {s : State} (w : Word) (hb : s.st = .busy) : exec (decodeCmd w) s = .next s := by
  obtain ⟨a, ha, -⟩ := exec_decodeCmd_accepts s w
  rw [ha, acceptCommand_busy s a hb]

/-- Settles O26: a command word is ignored or accepted. -/
theorem commandFrame : Obligations.CommandFrame := by
  intro s t w h
  obtain ⟨a, ha, hframe⟩ := exec_decodeCmd_accepts s w
  rw [ha] at h
  obtain ⟨-, rfl⟩ | ⟨-, rfl⟩ := acceptCommand_cases h
  · exact ⟨rfl, rfl, rfl, rfl, rfl⟩
  · exact hframe

/-- In `IDLE` there is nothing to clear (R40 (b)). -/
theorem clearStatus_of_idle {s : State} (hi : StateInv s) (h : s.st = .idle) : s.clearStatus = s := by
  obtain ⟨hpos, hout, hcnt, hepos, herr, hcode⟩ := hi.idle h
  obtain ⟨hop, hcomp⟩ := hi.idleCommand h
  cases s
  simp_all [State.clearStatus, State.clearCounters]

theorem clearStatus_status (s : State) : s.clearStatus.status = 0x00000000#32 :=
  calc s.clearStatus.status
    _ = State.reset.status := rfl
    _ = 0x00000000#32 := by decide

/-- Settles O22, by whether `CLR` is accepted. -/
theorem clearCommand : Obligations.ClearCommand := by
  refine ⟨fun s hf => acceptCommand_free s _ hf, fun s t hf h => ?_, fun s hi hidle => ?_,
    fun s hb => acceptCommand_busy s _ hb⟩
  · obtain ⟨hb, -⟩ | ⟨-, rfl⟩ := acceptCommand_cases h
    · exact absurd hb hf
    · exact clearStatus_status s
  · have hf : s.st ≠ .busy := by simp [hidle]
    exact (acceptCommand_free s s.clearStatus hf).trans (congrArg _ (clearStatus_of_idle hi hidle))

/-- Settles O23: each of the four commands is accepted and starts the job that its word names. -/
theorem jobStart : Obligations.JobStart := by
  refine ⟨fun s comp hf => ?_, fun s t w hw hf h => ?_⟩
  · exact ⟨acceptCommand_free s _ hf, acceptCommand_free s _ hf, acceptCommand_free s _ hf, acceptCommand_free s _ hf⟩
  · rw [exec_decodeCmd_job s hw, acceptCommand_free s _ hf] at h
    cases h
    exact ⟨rfl, rfl⟩

/-- The status of the spec's example of an illegal word (R133) depends on no state before it. -/
theorem illegalCommand_status (s : State) : (s.illegalCommand 0x00000005#32).status = 0x00050706#32 :=
  calc (s.illegalCommand 0x00000005#32).status
    _ = (State.reset.illegalCommand 0x00000005#32).status := rfl
    _ = 0x00050706#32 := by decide

/-- Settles O24: an illegal word is accepted like any other. -/
theorem illegalCommandWord : Obligations.IllegalCommandWord := by
  refine ⟨fun s w hf => acceptCommand_free s _ hf, fun s t hf h => ?_⟩
  rw [exec_decodeCmd_illegal s (by decide), acceptCommand_free s _ hf] at h
  cases h
  exact illegalCommand_status s

/-- Settles O25, by the kind of the word. -/
theorem commandWriteDispatch : Obligations.CommandWriteDispatch := by
  intro s w
  rw [hostStep_writeCmd]
  refine ⟨exec_decodeCmd_busy w, fun hf hj => ?_, ?_, fun hf hi => ?_⟩
  · rw [exec_decodeCmd_job s hj]
    exact acceptCommand_free s _ hf
  · rintro hf rfl
    exact acceptCommand_free s _ hf
  · rw [exec_decodeCmd_illegal s hi]
    exact acceptCommand_free s _ hf

/-! ## The engine's step of each operation (R134 to R144) -/

/-- Settles O42: the engine's turn looks at `st` first. -/
theorem engineHolds : Obligations.EngineHolds := fun _ h => if_neg h

/-- Settles O37: both cases have the cursor at `IN_LEN`. -/
theorem completionStep : Obligations.CompletionStep :=
  ⟨fun _ hb hp => engineStep_of_completes ⟨hb, hp⟩, fun _ _ _ h => engineStep_of_completes ⟨rfl, h.symm⟩⟩

theorem decodeUnit_outside {s : State} {op : BitVec 3} (k : Nat) (r : Except ErrKind (List Byte))
    (h : s.st ≠ .busy ∨ s.op ≠ op) : decodeUnit s op k r = .next s :=
  if_neg fun ⟨hb, ho, _⟩ => h.elim (absurd hb) (absurd ho)

/-- Settles O35: a frame is a unit of operation 2 only, a run record of operation 4 only. -/
theorem unitOutsideItsJob : Obligations.UnitOutsideItsJob := by
  refine fun i s => ⟨fun hi h => ?_, fun hi h => ?_⟩
  · rw [exec_frame hi, decodeUnit_outside _ _ h]
  · rw [exec_run hi, decodeUnit_outside _ _ h]

theorem engineStep_encXfer {s : State} (hb : s.st = .busy) (ho : s.op = 1#3) (hr : 1 ≤ s.rem) :
    engineStep s = encXferUnit s := by
  have hz : s.rem ≠ 0 := by omega
  simp only [engineStep, if_pos hb, if_neg (inPos_ne_of_rem_pos hr), if_neg hz, if_pos ho]

theorem engineStep_rleEnc {s : State} (hb : s.st = .busy) (ho : s.op = 3#3) (hr : 1 ≤ s.rem) :
    engineStep s = rleEncUnit s := by
  have hz : s.rem ≠ 0 := by omega
  simp [engineStep, hb, ho, hz, inPos_ne_of_rem_pos hr]

/-- Settles O38: the line is queued or not. -/
theorem encXferUnitStep : Obligations.EncXferUnitStep := by
  rintro s m hb ho hr rfl
  rw [engineStep_encXfer hb ho hr]
  refine ⟨?_, fun h => if_neg (Nat.not_le.mpr h)⟩
  rintro h f rfl
  have hline : padLine (s.inPeek (min 16 s.rem)) =
      s.inq.take (min 16 s.rem) ++ List.replicate (16 - min 16 s.rem) 0#8 := by
    rw [padLine, State.inPeek, List.length_take_of_le h]
  rw [← hline]
  exact if_pos h

/-- R139, R144: with a unit in error the engine faults when all the rest of the job's input is queued, and else holds. -/
theorem perform_error (s : State) (K : ErrKind) :
    (s.ready = s.rem → s.perform (.error K) = .next (s.faultEntry K)) ∧
      (s.ready ≠ s.rem → s.perform (.error K) = .next s) :=
  ⟨fun h => if_pos h, fun h => if_neg h⟩

/-- Settles O39: the engine performs what the frame at the head of the window stands for; a line has 16 bytes. -/
theorem decXferStep_frameParse : Obligations.DecXferStep := by
  intro s hb ho hr
  rw [engineStep_decXfer hb ho hr, decXferStep_eq_perform hb ho]
  refine ⟨fun c line h => ?_, fun K h => ?_⟩
  · obtain ⟨-, -, hlen⟩ := frameParse_consumes h
    rw [h, State.perform, unitStep_eq, hlen]
  · rw [h]
    exact perform_error s K

/-- Settles O41: the engine performs what the record at the head of the window stands for. -/
theorem rleDecStep_recParse : Obligations.RleDecStep := by
  intro s hb ho hr
  rw [engineStep_rleDec hb ho hr, rleDecStep_eq_perform hb ho]
  refine ⟨fun c d h => ?_, fun K h => ?_⟩
  · rw [h, State.perform, unitStep_eq]
  · rw [h]
    exact perform_error s K

theorem firstRun_take (y : List Byte) : firstRun (y.take 129) = firstRun y := by
  by_cases hlen : 129 ≤ y.length
  · have happ := firstRun_append (q := y.take 129) (y.drop 129) (List.length_take_of_le hlen).ge
    rw [List.take_append_drop] at happ
    exact happ.symm
  · rw [List.take_of_length_le (by omega)]

/-- The longest record is a literal of 128 bytes (R72). -/
theorem record_length_le {i : Instr} (hi : IsPackedRecord i) : (streamBytes i).length ≤ 129 := by
  obtain ⟨d, rfl, -, h128⟩ | ⟨n, b, rfl, -⟩ := (isPackedRecord_iff i).mp hi
  · rw [streamBytes_lit_length]
    omega
  · exact (by decide : 2 ≤ 129)

/-- Settles O40: the look-ahead is queued or not; and a turn of the encoder is decided by it. -/
theorem rleEncUnitStep : Obligations.RleEncUnitStep := by
  refine ⟨?_, fun y c i hy h => ?_⟩
  · rintro s w hb ho hr rfl
    rw [engineStep_rleEnc hb ho hr]
    refine ⟨fun hw c i h => ?_, fun hw => if_neg (Nat.not_le.mpr hw)⟩
    have hstep : rleEncUnit s = .next (s.unitStep (firstRun (s.inPeek (min s.rem 129))).1
        (streamBytes (firstRun (s.inPeek (min s.rem 129))).2)) := if_pos hw
    rw [hstep, State.inPeek, h, unitStep_eq]
  · obtain ⟨b, xs, rfl⟩ := List.exists_cons_of_ne_nil hy
    obtain ⟨hpos, h128, hlen⟩ := firstRun_consumes b xs
    obtain ⟨hrec, -⟩ := firstRun_record b xs
    have henc := rleEncode_cons b xs
    rw [h] at hpos h128 hlen hrec henc
    obtain ⟨h2, -⟩ := record_size hrec
    exact ⟨(firstRun_take _).trans h, hpos, h128, hlen, h2, record_length_le hrec, henc⟩

/-! ## Which events set `ERR` (R152) -/

theorem recParse_error_kind {q : List Byte} {K : ErrKind} (h : recParse q = .error K) : K = .rleTrunc ∨ K = .rleRsvd := by
  simp only [recParse] at h
  split at h <;> cases h
  · exact .inr rfl
  · exact .inl rfl

theorem payloadLine_raw_error_kind {p : List Byte} {K : ErrKind} (h : payloadLine .raw p = .error K) : K = .rawLen := by
  simp only [payloadLine] at h
  split at h <;> cases h
  rfl

theorem payloadLine_rle_error_kind {p : List Byte} {K : ErrKind} (h : payloadLine .rle p = .error K) :
    K = .rleTrunc ∨ K = .rleRsvd ∨ K = .lineLen := by
  cases hd : rleDecode p with
  | error e =>
    obtain ⟨K', j⟩ := e
    rw [payloadLine_rleError hd] at h
    cases h
    obtain ⟨q, -, -, -, -, -, he⟩ := (rleDecodeAcceptsExactlyPackedBuffers.2 _ _ _).mp hd
    obtain rfl | rfl := recParse_error_kind he
    · exact .inl rfl
    · exact .inr (.inl rfl)
  | ok d =>
    simp only [payloadLine, hd] at h
    split at h <;> cases h
    exact .inr (.inr rfl)

/-- A frame in error has a reserved tag, is cut short, or has a payload in error (R120). -/
theorem frameParse_error_cases {comp : CompressionType} {q : List Byte} {K : ErrKind} (h : frameParse comp q = .error K) :
    K = .tag ∨ K = .frameTrunc ∨ ∃ p, payloadLine comp p = .error K := by
  cases hd : decodeFrame q with
  | error e =>
    rw [frameParse_of_cut comp hd] at h
    cases h
    exact .inr (.inl rfl)
  | ok ir =>
    obtain ⟨i, rest⟩ := ir
    obtain ⟨hi, -⟩ := decodeFrame_ok hd
    rw [frameParse_of_decoded hi hd] at h
    cases i with
    | g p =>
      cases hp : payloadLine comp p with
      | ok line =>
        simp only [unitOutput, hp] at h
        cases h
      | error K' =>
        simp only [unitOutput, hp] at h
        cases h
        exact .inr (.inr ⟨p, hp⟩)
    | z => cases h
    | frameReservedTag tag =>
      cases h
      exact .inl rfl
    | _ => cases hi

/-- The codes a unit in error can have, by the job (R152). -/
theorem jobUnit_error_code {op : BitVec 3} {comp : CompressionType} {q : List Byte} {K : ErrKind}
    (hop : 1 ≤ op.toNat ∧ op.toNat ≤ 4) (h : jobUnit op comp q = .error K) :
    (op = 2#3 ∧ comp = .rle ∧ errCodeOf K ∈ [1#4, 2#4, 4#4, 5#4, 6#4]) ∨
      (op = 2#3 ∧ comp = .raw ∧ errCodeOf K ∈ [1#4, 2#4, 3#4]) ∨ (op = 4#3 ∧ errCodeOf K ∈ [4#4, 5#4]) := by
  obtain rfl | rfl | rfl | rfl := jobOp_cases hop
  · cases h
  · cases comp with
    | raw =>
      refine .inr (.inl ⟨rfl, rfl, ?_⟩)
      obtain rfl | rfl | ⟨p, hp⟩ := frameParse_error_cases h
      · decide
      · decide
      · rw [payloadLine_raw_error_kind hp]
        decide
    | rle =>
      refine .inl ⟨rfl, rfl, ?_⟩
      obtain rfl | rfl | ⟨p, hp⟩ := frameParse_error_cases h
      · decide
      · decide
      · obtain rfl | rfl | rfl := payloadLine_rle_error_kind hp <;> decide
  · cases h
  · refine .inr (.inr ⟨rfl, ?_⟩)
    obtain rfl | rfl := recParse_error_kind h <;> decide

/-- An engine step that sets `ERR` is the fault step of the unit at the head of the window. -/
theorem engineStep_sets_err {s t : State} (h0 : s.err = false) (h : engineStep s = .next t) (h1 : t.err = true) :
    (1 ≤ s.op.toNat ∧ s.op.toNat ≤ 4) ∧ ∃ K, s.headUnit = .error K ∧ t = s.faultEntry K := by
  have kept : t.err ≠ s.err := by simp [h0, h1]
  by_cases hc : s.completes
  · rw [engineStep_of_completes hc] at h
    cases h
    exact absurd rfl kept
  by_cases hu : s.UnitDue
  swap
  · rw [engineStep_of_not hc hu] at h
    cases h
    exact absurd rfl kept
  refine ⟨hu.operation, ?_⟩
  rw [engineStep_of_unitDue hu] at h
  cases hd : s.headUnit with
  | ok r =>
    rw [hd] at h
    cases h
    exact absurd rfl kept
  | error K =>
    rw [hd] at h
    obtain ⟨-, rfl⟩ | ⟨-, rfl⟩ := faultStep_cases h
    · exact absurd rfl kept
    · exact ⟨K, rfl, rfl⟩

theorem writeWord_err {off : Nat} {v : Word} {s t : State} (h0 : off ≠ 0x00) (h : writeWord off v s = .next t) :
    t.err = s.err := by
  simp only [writeWord, if_neg h0] at h
  split at h
  · split at h <;> cases h <;> rfl
  · cases h
    rfl

/-- The only action of the host that can set `ERR` is a write to `CMD`. -/
theorem hostStep_sets_err {a : HostAction} {s t : State} (h0 : s.err = false) (h : hostStep a s = .next t)
    (h1 : t.err = true) : ∃ w, a = .writeReg .word 0x00 w := by
  have kept : t.err ≠ s.err := by simp [h0, h1]
  cases a with
  | readReg width off =>
    simp only [hostStep, hostRead] at h
    split at h <;> cases h
    exact absurd rfl kept
  | writeReg width off w =>
    simp only [hostStep, hostWrite] at h
    cases width with
    | byte => cases h
    | half => cases h
    | word =>
      by_cases hoff : off = 0x00
      · exact ⟨w, hoff ▸ rfl⟩
      · split at h
        · cases h
        · exact absurd (writeWord_err hoff h) kept
  | inPush b =>
    cases h
    exact absurd rfl kept
  | outPop =>
    simp only [hostStep, hostPop] at h
    split at h <;> cases h <;> exact absurd rfl kept
  | rst =>
    cases h
    cases h1

/-- An accepted command word that sets `ERR` is illegal. -/
theorem exec_decodeCmd_sets_err {s t : State} {w : Word} (h0 : s.err = false) (h : exec (decodeCmd w) s = .next t)
    (h1 : t.err = true) : w ∉ legalCommandWords ∧ t = s.illegalCommand w := by
  have accepted : ∀ {a : State}, acceptCommand s a = .next t → t = a := by
    intro a ha
    obtain ⟨-, rfl⟩ | ⟨-, rfl⟩ := acceptCommand_cases ha
    · exact absurd (h0.symm.trans h1) (by decide)
    · rfl
  rcases commandWord_cases w with hj | rfl | hi
  · rw [exec_decodeCmd_job s hj] at h
    cases accepted h
    cases h1
  · rw [exec_decodeCmd_zero] at h
    cases accepted h
    cases h1
  · rw [exec_decodeCmd_illegal s hi] at h
    exact ⟨hi, accepted h⟩

/-- Settles O46: the engine's fault step by the job's operation, and the illegal command word. -/
theorem faultKindsByOperation : Obligations.FaultKindsByOperation := by
  refine ⟨fun s t h0 h h1 => ?_, fun s t a h0 h h1 => ?_⟩
  · obtain ⟨hop, K, hunit, rfl⟩ := engineStep_sets_err h0 h h1
    exact jobUnit_error_code hop hunit
  · obtain ⟨w, rfl⟩ := hostStep_sets_err h0 h h1
    obtain ⟨hw, rfl⟩ := exec_decodeCmd_sets_err h0 h h1
    exact ⟨w, rfl, hw, rfl⟩

end Sys2Proof.Machine

/-! # The family of 60_exceptions.md: fault entry -/

namespace Sys2Proof.Machine

/-- R150: the code of each kind. -/
theorem errCodeOf_codes :
    errCodeOf .tag = 1#4 ∧ errCodeOf .frameTrunc = 2#4 ∧ errCodeOf .rawLen = 3#4 ∧ errCodeOf .rleTrunc = 4#4 ∧
      errCodeOf .rleRsvd = 5#4 ∧ errCodeOf .lineLen = 6#4 ∧ errCodeOf .cmd = 7#4 :=
  ⟨rfl, rfl, rfl, rfl, rfl, rfl, rfl⟩

/-- R156, R157: popping all that remains of the job's input leaves the cursor at `IN_LEN` and nothing else changed. -/
theorem inPop_rem (s : State) (h : s.inPos.toNat ≤ s.inLen.toNat) :
    s.inPop s.rem = { s with inq := s.inq.drop (s.inLen.toNat - s.inPos.toNat), inPos := s.inLen } := by
  rw [State.inPop, inPos_drain s h, State.rem]

/-- Settles O47: fault entry is the drain, by `inPop_rem`, and the record of position and code. -/
theorem faultEntryRecords : Obligations.FaultEntryRecords := by
  refine ⟨errCodeOf_codes, fun s K hcur => ?_⟩
  rw [State.faultEntry, inPop_rem s hcur]

end Sys2Proof.Machine
